-- ==== Sys2Proof/Word.lean ====
section
/-! DEFINITION. The machine's word and the plain widths the spec names (spec/00_scope.md R7, R9; spec/30_encoding.md R82, R95). -/

namespace Sys2Proof

/-- A Word: a 32-bit pattern, the register and address width XLEN (R7, R9). -/
abbrev Word := BitVec 32

/-- One byte of memory (R38). -/
abbrev Byte := BitVec 8

/-- A general register index, a 5-bit field (R24, R82). -/
abbrev RegIdx := BitVec 5

/-- A CSR address, unsigned and 12 bits wide (R32, R95). -/
abbrev CsrAddr := BitVec 12

/-- The access widths of R51: "width: {Byte, Half, Word}". -/
inductive Width where
  | byte
  | half
  | word
  deriving DecidableEq, Repr

/-- Whether a load sign-extends or zero-extends what it read (R55). -/
inductive Extension where
  | signed
  | unsigned
  deriving DecidableEq, Repr

end Sys2Proof
end

