-- ==== Sys2Proof/Machine/Flags.lean ====
section
/-! DEFINITION. The block has no flags (spec/10_state.md R40): a comparison yields the register value 0 or 1 (spec/41_alu.md R147, R148). These are the two comparisons. -/

namespace Sys2Proof.Machine

/-- `signed(a) < signed(b) ? 1 : 0` (R147). -/
def lessSigned (a b : Word) : Word := if a.toInt < b.toInt then 1#32 else 0#32

/-- `unsigned(a) < unsigned(b) ? 1 : 0` (R148). -/
def lessUnsigned (a b : Word) : Word := if a.toNat < b.toNat then 1#32 else 0#32

end Sys2Proof.Machine
end

