-- ==== Sys2Proof/Config.lean ====
section
/-! DEFINITION. The implementation parameters of spec/00_scope.md R7: what construction fixes for the run. The spec leaves no result undefined, so there is no free value here. -/

namespace Sys2Proof

/-- MISALIGNED_DATA (R7, R58): `permit` is the normative value, `fault` the documented alternative. -/
inductive MisalignedData where
  | permit
  | fault
  deriving DecidableEq, Repr

/-- The CSR addresses `first .. last`, both included. -/
structure CsrRange where
  first : CsrAddr
  last  : CsrAddr
  deriving DecidableEq, Repr

/-- What construction fixes and no instruction changes (R21): MEM_SIZE, MISALIGNED_DATA, and the set
of registered CSR addresses (the domain of CSR_INIT), written as ranges. -/
structure Config where
  memSize        : Nat
  misalignedData : MisalignedData
  csrRanges      : List CsrRange
  deriving DecidableEq, Repr

/-- Memory contents: the bytes that differ from `Memory.unlisted`, by rising address (R38). -/
abbrev Memory := List Host.Cell

/-- CSR contents: the registered CSRs that differ from `Machine.CsrBank.unlisted`, by rising address (R32). -/
abbrev CsrBank := List (Nat × Word)

/-- The arguments of construction (R7, R290): `cfg` holds MEM_SIZE, MISALIGNED_DATA and the domain of CSR_INIT;
`initMem` is INIT_MEM, `initX` is INIT_X for x1 .. x31 (x1 first), `initPc` is INIT_PC and `csrInit` is CSR_INIT.
`initMem` and `csrInit` list only what differs from zero; a byte or a registered CSR that is not listed is 0, so every
INIT_MEM and every CSR_INIT has exactly one such list. -/
structure Params where
  cfg     : Config
  initMem : Memory
  initX   : Vector Word 31
  initPc  : Word
  csrInit : CsrBank
  deriving DecidableEq, Repr

end Sys2Proof
end

