-- ==== Sys2Proof/Syntax.lean ====
section
/-! DEFINITION. The decoded instructions (spec/30_encoding.md R107), one constructor per row of spec/opcode_table.json, in the table's order. -/

namespace Sys2Proof

/-- A decoded instruction: register indices, and the immediate "already sign-extended per its field width" (R107).
`immI` and `immS` are sign-extended 12-bit fields (R89, R90), `immU` a Word whose low 12 bits are zero (R92), `immJ` a
sign-extended even 21-bit value (R93); `shamt` and `zimm` are unsigned 5-bit fields and `csr` an unsigned 12-bit one (R94, R95). -/
inductive Instr where
  -- upper-immediate operations (R220, R221)
  | lui    (rd : RegIdx) (immU : Word)
  | auipc  (rd : RegIdx) (immU : Word)
  -- jumps (R202, R203)
  | jal    (rd : RegIdx) (immJ : Word)
  | jalr   (rd rs1 : RegIdx) (immI : Word)
  -- loads (R184 to R188)
  | lb     (rd rs1 : RegIdx) (immI : Word)
  | lh     (rd rs1 : RegIdx) (immI : Word)
  | lw     (rd rs1 : RegIdx) (immI : Word)
  | lbu    (rd rs1 : RegIdx) (immI : Word)
  | lhu    (rd rs1 : RegIdx) (immI : Word)
  -- stores (R189 to R191)
  | sb     (rs1 rs2 : RegIdx) (immS : Word)
  | sh     (rs1 rs2 : RegIdx) (immS : Word)
  | sw     (rs1 rs2 : RegIdx) (immS : Word)
  -- register-immediate ALU operations (R155 to R163)
  | addi   (rd rs1 : RegIdx) (immI : Word)
  | slti   (rd rs1 : RegIdx) (immI : Word)
  | sltiu  (rd rs1 : RegIdx) (immI : Word)
  | xori   (rd rs1 : RegIdx) (immI : Word)
  | ori    (rd rs1 : RegIdx) (immI : Word)
  | andi   (rd rs1 : RegIdx) (immI : Word)
  | slli   (rd rs1 : RegIdx) (shamt : BitVec 5)
  | srli   (rd rs1 : RegIdx) (shamt : BitVec 5)
  | srai   (rd rs1 : RegIdx) (shamt : BitVec 5)
  -- register-register ALU operations (R145 to R154)
  | add    (rd rs1 rs2 : RegIdx)
  | sub    (rd rs1 rs2 : RegIdx)
  | sll    (rd rs1 rs2 : RegIdx)
  | slt    (rd rs1 rs2 : RegIdx)
  | sltu   (rd rs1 rs2 : RegIdx)
  | xor    (rd rs1 rs2 : RegIdx)
  | srl    (rd rs1 rs2 : RegIdx)
  | sra    (rd rs1 rs2 : RegIdx)
  | or     (rd rs1 rs2 : RegIdx)
  | and    (rd rs1 rs2 : RegIdx)
  -- CSR operations (R234 to R239)
  | csrrw  (rd rs1 : RegIdx) (csr : CsrAddr)
  | csrrs  (rd rs1 : RegIdx) (csr : CsrAddr)
  | csrrc  (rd rs1 : RegIdx) (csr : CsrAddr)
  | csrrwi (rd : RegIdx) (zimm : BitVec 5) (csr : CsrAddr)
  | csrrsi (rd : RegIdx) (zimm : BitVec 5) (csr : CsrAddr)
  | csrrci (rd : RegIdx) (zimm : BitVec 5) (csr : CsrAddr)
  deriving DecidableEq, Repr

end Sys2Proof
end

