-- ==== Sys2Proof/WellFormed.lean ====
section
/-! DEFINITION. Which terms of Instr the decoder can produce: each immediate lies in the range its field gives it (spec/30_encoding.md R89, R90, R92, R93). Register indices, shift amounts, zimm and csr fit their fields by their types. -/

namespace Sys2Proof

/-- R89 and R90: an I- or S-immediate has range -2048 .. 2047. -/
abbrev fitsImm12 (imm : Word) : Prop := -2048 ≤ imm.toInt ∧ imm.toInt ≤ 2047

/-- R92: bits 11:0 of a U-immediate are zero. -/
abbrev fitsImmU (imm : Word) : Prop := imm.toNat % 4096 = 0

/-- R93: a J-immediate has range -1048576 .. 1048574 and is even. -/
abbrev fitsImmJ (imm : Word) : Prop :=
  -1048576 ≤ imm.toInt ∧ imm.toInt ≤ 1048574 ∧ imm.toNat % 2 = 0

/-- The terms that some instruction word decodes to. -/
def Instr.wellFormed : Instr → Bool
  | .lui _ immU      => decide (fitsImmU immU)
  | .auipc _ immU    => decide (fitsImmU immU)
  | .jal _ immJ      => decide (fitsImmJ immJ)
  | .jalr _ _ immI   => decide (fitsImm12 immI)
  | .lb _ _ immI     => decide (fitsImm12 immI)
  | .lh _ _ immI     => decide (fitsImm12 immI)
  | .lw _ _ immI     => decide (fitsImm12 immI)
  | .lbu _ _ immI    => decide (fitsImm12 immI)
  | .lhu _ _ immI    => decide (fitsImm12 immI)
  | .sb _ _ immS     => decide (fitsImm12 immS)
  | .sh _ _ immS     => decide (fitsImm12 immS)
  | .sw _ _ immS     => decide (fitsImm12 immS)
  | .addi _ _ immI   => decide (fitsImm12 immI)
  | .slti _ _ immI   => decide (fitsImm12 immI)
  | .sltiu _ _ immI  => decide (fitsImm12 immI)
  | .xori _ _ immI   => decide (fitsImm12 immI)
  | .ori _ _ immI    => decide (fitsImm12 immI)
  | .andi _ _ immI   => decide (fitsImm12 immI)
  | .slli _ _ _      => true
  | .srli _ _ _      => true
  | .srai _ _ _      => true
  | .add _ _ _       => true
  | .sub _ _ _       => true
  | .sll _ _ _       => true
  | .slt _ _ _       => true
  | .sltu _ _ _      => true
  | .xor _ _ _       => true
  | .srl _ _ _       => true
  | .sra _ _ _       => true
  | .or _ _ _        => true
  | .and _ _ _       => true
  | .csrrw _ _ _     => true
  | .csrrs _ _ _     => true
  | .csrrc _ _ _     => true
  | .csrrwi _ _ _    => true
  | .csrrsi _ _ _    => true
  | .csrrci _ _ _    => true

end Sys2Proof
end

