-- ==== Sys2Proof/Decode.lean ====
section
/-! DEFINITION. The instruction decoder, total on every word (spec/30_encoding.md R80 to R108), and after it the encoder, written from the same formats. Numeric values: R99 to R104. -/

namespace Sys2Proof

/-! ### Byte order of an instruction word (R57, R81) -/

/-- The word whose bits 7:0 are `b0`, the byte at the lowest address. -/
def wordOfBytes (b0 b1 b2 b3 : Byte) : Word := b3 ++ b2 ++ b1 ++ b0

/-- The bytes of a word, lowest address first. -/
def byte0 (w : Word) : Byte := w.extractLsb' 0 8
def byte1 (w : Word) : Byte := w.extractLsb' 8 8
def byte2 (w : Word) : Byte := w.extractLsb' 16 8
def byte3 (w : Word) : Byte := w.extractLsb' 24 8

/-! ### Extension (R11) -/

/-- `sext_N` of an N-bit field. -/
def sext {n : Nat} (v : BitVec n) : Word := v.signExtend 32

/-- `zext_N` of an N-bit field. -/
def zext {n : Nat} (v : BitVec n) : Word := v.setWidth 32

/-! ### Fields of an instruction word (R82, R94, R95) -/

def opcodeOf (w : Word) : BitVec 7  := w.extractLsb' 0 7
def rdOf     (w : Word) : RegIdx    := w.extractLsb' 7 5
def funct3Of (w : Word) : BitVec 3  := w.extractLsb' 12 3
def rs1Of    (w : Word) : RegIdx    := w.extractLsb' 15 5
def rs2Of    (w : Word) : RegIdx    := w.extractLsb' 20 5
def funct7Of (w : Word) : BitVec 7  := w.extractLsb' 25 7
/-- R94: the shift amount is `w[24:20]`. -/
def shamtOf  (w : Word) : BitVec 5  := w.extractLsb' 20 5
/-- R95: the CSR address is `w[31:20]`. -/
def csrOf    (w : Word) : CsrAddr   := w.extractLsb' 20 12
/-- R95: the CSR immediate is `w[19:15]`. -/
def zimmOf   (w : Word) : BitVec 5  := w.extractLsb' 15 5

/-! ### Immediates (R89 to R93) -/

/-- R89: `sext_12(w[31:20])`. -/
def immIOf (w : Word) : Word := sext (w.extractLsb' 20 12)

/-- R90: `sext_12(w[31:25] ++ w[11:7])`. -/
def immSOf (w : Word) : Word := sext (w.extractLsb' 25 7 ++ w.extractLsb' 7 5)

/-- R92: `w[31:12] ++ 0x000`. -/
def immUOf (w : Word) : Word := w.extractLsb' 12 20 ++ 0#12

/-- R93: `sext_21(w[31] ++ w[19:12] ++ w[20] ++ w[30:21] ++ 0b0)`. -/
def immJOf (w : Word) : Word :=
  sext (w.extractLsb' 31 1 ++ w.extractLsb' 12 8 ++ w.extractLsb' 20 1 ++ w.extractLsb' 21 10 ++ 0#1)

/-! ### Decoding -/

/-- The subkind of UnknownOpcode (R97, R98). -/
inductive DecodeError where
  /-- an RV32I encoding the source excludes by name (R97) -/
  | notImplemented
  /-- every other word that matches no row (R98) -/
  | malformed
  deriving DecidableEq, Repr

/-- LOAD, by funct3 (R102). -/
def decodeLoad (w : Word) : Except DecodeError Instr :=
  match funct3Of w with
  | 0b000#3 => .ok (.lb (rdOf w) (rs1Of w) (immIOf w))
  | 0b001#3 => .ok (.lh (rdOf w) (rs1Of w) (immIOf w))
  | 0b010#3 => .ok (.lw (rdOf w) (rs1Of w) (immIOf w))
  | 0b100#3 => .ok (.lbu (rdOf w) (rs1Of w) (immIOf w))
  | 0b101#3 => .ok (.lhu (rdOf w) (rs1Of w) (immIOf w))
  | _ => .error .malformed

/-- STORE, by funct3 (R102). -/
def decodeStore (w : Word) : Except DecodeError Instr :=
  match funct3Of w with
  | 0b000#3 => .ok (.sb (rs1Of w) (rs2Of w) (immSOf w))
  | 0b001#3 => .ok (.sh (rs1Of w) (rs2Of w) (immSOf w))
  | 0b010#3 => .ok (.sw (rs1Of w) (rs2Of w) (immSOf w))
  | _ => .error .malformed

/-- SRLI or SRAI, by the whole of funct7 (R100, D20). -/
def decodeShiftRightImm (w : Word) : Except DecodeError Instr :=
  match funct7Of w with
  | 0b0000000#7 => .ok (.srli (rdOf w) (rs1Of w) (shamtOf w))
  | 0b0100000#7 => .ok (.srai (rdOf w) (rs1Of w) (shamtOf w))
  | _ => .error .malformed

/-- SLLI, only with funct7 0000000 (R98, R100). -/
def decodeShiftLeftImm (w : Word) : Except DecodeError Instr :=
  match funct7Of w with
  | 0b0000000#7 => .ok (.slli (rdOf w) (rs1Of w) (shamtOf w))
  | _ => .error .malformed

/-- OP-IMM, by funct3 and for shifts by funct7 (R100). -/
def decodeOpImm (w : Word) : Except DecodeError Instr :=
  match funct3Of w with
  | 0b000#3 => .ok (.addi (rdOf w) (rs1Of w) (immIOf w))
  | 0b010#3 => .ok (.slti (rdOf w) (rs1Of w) (immIOf w))
  | 0b011#3 => .ok (.sltiu (rdOf w) (rs1Of w) (immIOf w))
  | 0b100#3 => .ok (.xori (rdOf w) (rs1Of w) (immIOf w))
  | 0b110#3 => .ok (.ori (rdOf w) (rs1Of w) (immIOf w))
  | 0b111#3 => .ok (.andi (rdOf w) (rs1Of w) (immIOf w))
  | 0b001#3 => decodeShiftLeftImm w
  | 0b101#3 => decodeShiftRightImm w
  | _ => .error .malformed

/-- OP with funct7 0000000, by funct3 (R101). -/
def decodeOpBase (w : Word) : Except DecodeError Instr :=
  match funct3Of w with
  | 0b000#3 => .ok (.add (rdOf w) (rs1Of w) (rs2Of w))
  | 0b001#3 => .ok (.sll (rdOf w) (rs1Of w) (rs2Of w))
  | 0b010#3 => .ok (.slt (rdOf w) (rs1Of w) (rs2Of w))
  | 0b011#3 => .ok (.sltu (rdOf w) (rs1Of w) (rs2Of w))
  | 0b100#3 => .ok (.xor (rdOf w) (rs1Of w) (rs2Of w))
  | 0b101#3 => .ok (.srl (rdOf w) (rs1Of w) (rs2Of w))
  | 0b110#3 => .ok (.or (rdOf w) (rs1Of w) (rs2Of w))
  | 0b111#3 => .ok (.and (rdOf w) (rs1Of w) (rs2Of w))
  | _ => .error .malformed

/-- OP with funct7 0100000: SUB and SRA only (R101). -/
def decodeOpAlt (w : Word) : Except DecodeError Instr :=
  match funct3Of w with
  | 0b000#3 => .ok (.sub (rdOf w) (rs1Of w) (rs2Of w))
  | 0b101#3 => .ok (.sra (rdOf w) (rs1Of w) (rs2Of w))
  | _ => .error .malformed

/-- OP, by the whole of funct7 (R101, D20). -/
def decodeOp (w : Word) : Except DecodeError Instr :=
  match funct7Of w with
  | 0b0000000#7 => decodeOpBase w
  | 0b0100000#7 => decodeOpAlt w
  | _ => .error .malformed

/-- SYSTEM (R103): the six CSR operations; funct3 000 is excluded by name (R97), funct3 100 is malformed (R98). -/
def decodeSystem (w : Word) : Except DecodeError Instr :=
  match funct3Of w with
  | 0b001#3 => .ok (.csrrw (rdOf w) (rs1Of w) (csrOf w))
  | 0b010#3 => .ok (.csrrs (rdOf w) (rs1Of w) (csrOf w))
  | 0b011#3 => .ok (.csrrc (rdOf w) (rs1Of w) (csrOf w))
  | 0b101#3 => .ok (.csrrwi (rdOf w) (zimmOf w) (csrOf w))
  | 0b110#3 => .ok (.csrrsi (rdOf w) (zimmOf w) (csrOf w))
  | 0b111#3 => .ok (.csrrci (rdOf w) (zimmOf w) (csrOf w))
  | 0b000#3 => .error .notImplemented
  | _ => .error .malformed

/-- JALR, only with funct3 000 (R98, R99). -/
def decodeJalr (w : Word) : Except DecodeError Instr :=
  match funct3Of w with
  | 0b000#3 => .ok (.jalr (rdOf w) (rs1Of w) (immIOf w))
  | _ => .error .malformed

/-- BRANCH: the six RV32I branches are excluded by name (R97); funct3 010 and 011 are malformed (R98). -/
def decodeBranch (w : Word) : DecodeError :=
  match funct3Of w with
  | 0b010#3 => .malformed
  | 0b011#3 => .malformed
  | _ => .notImplemented

/-- MISC-MEM: FENCE and FENCE.I are excluded by name (R97); other funct3 values are malformed (R98). -/
def decodeMiscMem (w : Word) : DecodeError :=
  match funct3Of w with
  | 0b000#3 => .notImplemented
  | 0b001#3 => .notImplemented
  | _ => .malformed

/-- `decode(w)`, a total function of the word (R96), by major opcode (R99). -/
def decode (w : Word) : Except DecodeError Instr :=
  match opcodeOf w with
  | 0b0110111#7 => .ok (.lui (rdOf w) (immUOf w))
  | 0b0010111#7 => .ok (.auipc (rdOf w) (immUOf w))
  | 0b1101111#7 => .ok (.jal (rdOf w) (immJOf w))
  | 0b1100111#7 => decodeJalr w
  | 0b0000011#7 => decodeLoad w
  | 0b0100011#7 => decodeStore w
  | 0b0010011#7 => decodeOpImm w
  | 0b0110011#7 => decodeOp w
  | 0b1110011#7 => decodeSystem w
  | 0b1100011#7 => .error (decodeBranch w)
  | 0b0001111#7 => .error (decodeMiscMem w)
  | _ => .error .malformed

/-- The decoder on the four bytes of an instruction, lowest address first (R57, R81). -/
def decodeBytes (b0 b1 b2 b3 : Byte) : Except DecodeError Instr := decode (wordOfBytes b0 b1 b2 b3)

/-- The instruction word the opcode table numbers as `w`, whose bits from `nbits` up are zero. -/
def tableWord (nbits w : Nat) : Word := BitVec.ofNat 32 (w % 2 ^ nbits)

/-- What the decoder reads from the bytes of the instruction the opcode table numbers as `w`. -/
def decodeTableWord (nbits w : Nat) : Option Instr :=
  let v := tableWord nbits w
  (decodeBytes (byte0 v) (byte1 v) (byte2 v) (byte3 v)).toOption

/-! ### Encoding: the formats of R83 to R88 -/

/-- R83, and the shift-immediate variant of R84 with `rs2` the shift amount. -/
def rFormat (funct7 : BitVec 7) (rs2 rs1 : BitVec 5) (funct3 : BitVec 3) (rd : BitVec 5) (opcode : BitVec 7) : Word :=
  funct7 ++ rs2 ++ rs1 ++ funct3 ++ rd ++ opcode

/-- R84, with `imm12` the 12 bits of w[31:20]: an immediate or a CSR address. -/
def iFormat (imm12 : BitVec 12) (rs1 : BitVec 5) (funct3 : BitVec 3) (rd : BitVec 5) (opcode : BitVec 7) : Word :=
  imm12 ++ rs1 ++ funct3 ++ rd ++ opcode

/-- R85. -/
def sFormat (imm12 : BitVec 12) (rs2 rs1 : BitVec 5) (funct3 : BitVec 3) (opcode : BitVec 7) : Word :=
  imm12.extractLsb' 5 7 ++ rs2 ++ rs1 ++ funct3 ++ imm12.extractLsb' 0 5 ++ opcode

/-- R87, with `imm20` the bits 31:12 of the immediate. -/
def uFormat (imm20 : BitVec 20) (rd : BitVec 5) (opcode : BitVec 7) : Word :=
  imm20 ++ rd ++ opcode

/-- R88, with `imm21` the low 21 bits of the immediate (bit 0 is not stored). -/
def jFormat (imm21 : BitVec 21) (rd : BitVec 5) (opcode : BitVec 7) : Word :=
  imm21.extractLsb' 20 1 ++ imm21.extractLsb' 1 10 ++ imm21.extractLsb' 11 1 ++ imm21.extractLsb' 12 8 ++ rd ++ opcode

/-- The low 12 bits of an I- or S-immediate. -/
def low12 (imm : Word) : BitVec 12 := imm.extractLsb' 0 12

/-- The instruction word of a well-formed instruction. -/
def encode : Instr → Word
  | .lui rd immU        => uFormat (immU.extractLsb' 12 20) rd 0b0110111#7
  | .auipc rd immU      => uFormat (immU.extractLsb' 12 20) rd 0b0010111#7
  | .jal rd immJ        => jFormat (immJ.extractLsb' 0 21) rd 0b1101111#7
  | .jalr rd rs1 immI   => iFormat (low12 immI) rs1 0b000#3 rd 0b1100111#7
  | .lb rd rs1 immI     => iFormat (low12 immI) rs1 0b000#3 rd 0b0000011#7
  | .lh rd rs1 immI     => iFormat (low12 immI) rs1 0b001#3 rd 0b0000011#7
  | .lw rd rs1 immI     => iFormat (low12 immI) rs1 0b010#3 rd 0b0000011#7
  | .lbu rd rs1 immI    => iFormat (low12 immI) rs1 0b100#3 rd 0b0000011#7
  | .lhu rd rs1 immI    => iFormat (low12 immI) rs1 0b101#3 rd 0b0000011#7
  | .sb rs1 rs2 immS    => sFormat (low12 immS) rs2 rs1 0b000#3 0b0100011#7
  | .sh rs1 rs2 immS    => sFormat (low12 immS) rs2 rs1 0b001#3 0b0100011#7
  | .sw rs1 rs2 immS    => sFormat (low12 immS) rs2 rs1 0b010#3 0b0100011#7
  | .addi rd rs1 immI   => iFormat (low12 immI) rs1 0b000#3 rd 0b0010011#7
  | .slti rd rs1 immI   => iFormat (low12 immI) rs1 0b010#3 rd 0b0010011#7
  | .sltiu rd rs1 immI  => iFormat (low12 immI) rs1 0b011#3 rd 0b0010011#7
  | .xori rd rs1 immI   => iFormat (low12 immI) rs1 0b100#3 rd 0b0010011#7
  | .ori rd rs1 immI    => iFormat (low12 immI) rs1 0b110#3 rd 0b0010011#7
  | .andi rd rs1 immI   => iFormat (low12 immI) rs1 0b111#3 rd 0b0010011#7
  | .slli rd rs1 shamt  => rFormat 0b0000000#7 shamt rs1 0b001#3 rd 0b0010011#7
  | .srli rd rs1 shamt  => rFormat 0b0000000#7 shamt rs1 0b101#3 rd 0b0010011#7
  | .srai rd rs1 shamt  => rFormat 0b0100000#7 shamt rs1 0b101#3 rd 0b0010011#7
  | .add rd rs1 rs2     => rFormat 0b0000000#7 rs2 rs1 0b000#3 rd 0b0110011#7
  | .sub rd rs1 rs2     => rFormat 0b0100000#7 rs2 rs1 0b000#3 rd 0b0110011#7
  | .sll rd rs1 rs2     => rFormat 0b0000000#7 rs2 rs1 0b001#3 rd 0b0110011#7
  | .slt rd rs1 rs2     => rFormat 0b0000000#7 rs2 rs1 0b010#3 rd 0b0110011#7
  | .sltu rd rs1 rs2    => rFormat 0b0000000#7 rs2 rs1 0b011#3 rd 0b0110011#7
  | .xor rd rs1 rs2     => rFormat 0b0000000#7 rs2 rs1 0b100#3 rd 0b0110011#7
  | .srl rd rs1 rs2     => rFormat 0b0000000#7 rs2 rs1 0b101#3 rd 0b0110011#7
  | .sra rd rs1 rs2     => rFormat 0b0100000#7 rs2 rs1 0b101#3 rd 0b0110011#7
  | .or rd rs1 rs2      => rFormat 0b0000000#7 rs2 rs1 0b110#3 rd 0b0110011#7
  | .and rd rs1 rs2     => rFormat 0b0000000#7 rs2 rs1 0b111#3 rd 0b0110011#7
  | .csrrw rd rs1 csr   => iFormat csr rs1 0b001#3 rd 0b1110011#7
  | .csrrs rd rs1 csr   => iFormat csr rs1 0b010#3 rd 0b1110011#7
  | .csrrc rd rs1 csr   => iFormat csr rs1 0b011#3 rd 0b1110011#7
  | .csrrwi rd zimm csr => iFormat csr zimm 0b101#3 rd 0b1110011#7
  | .csrrsi rd zimm csr => iFormat csr zimm 0b110#3 rd 0b1110011#7
  | .csrrci rd zimm csr => iFormat csr zimm 0b111#3 rd 0b1110011#7

/-! ### The opcode table (spec/opcode_table.json), as the decoder's contract (R96) -/

/-- One row: a word `w` is an encoding of the instruction when `w &&& mask = pattern`. -/
structure OpcodeRow where
  mnemonic : String
  mask     : Word
  pattern  : Word
  deriving DecidableEq, Repr

def rowsUpper : List OpcodeRow :=
  [⟨"LUI", 0x0000007F#32, 0x00000037#32⟩,
   ⟨"AUIPC", 0x0000007F#32, 0x00000017#32⟩]

def rowsJump : List OpcodeRow :=
  [⟨"JAL", 0x0000007F#32, 0x0000006F#32⟩,
   ⟨"JALR", 0x0000707F#32, 0x00000067#32⟩]

def rowsLoad : List OpcodeRow :=
  [⟨"LB", 0x0000707F#32, 0x00000003#32⟩,
   ⟨"LH", 0x0000707F#32, 0x00001003#32⟩,
   ⟨"LW", 0x0000707F#32, 0x00002003#32⟩,
   ⟨"LBU", 0x0000707F#32, 0x00004003#32⟩,
   ⟨"LHU", 0x0000707F#32, 0x00005003#32⟩]

def rowsStore : List OpcodeRow :=
  [⟨"SB", 0x0000707F#32, 0x00000023#32⟩,
   ⟨"SH", 0x0000707F#32, 0x00001023#32⟩,
   ⟨"SW", 0x0000707F#32, 0x00002023#32⟩]

def rowsOpImm : List OpcodeRow :=
  [⟨"ADDI", 0x0000707F#32, 0x00000013#32⟩,
   ⟨"SLTI", 0x0000707F#32, 0x00002013#32⟩,
   ⟨"SLTIU", 0x0000707F#32, 0x00003013#32⟩,
   ⟨"XORI", 0x0000707F#32, 0x00004013#32⟩,
   ⟨"ORI", 0x0000707F#32, 0x00006013#32⟩,
   ⟨"ANDI", 0x0000707F#32, 0x00007013#32⟩,
   ⟨"SLLI", 0xFE00707F#32, 0x00001013#32⟩,
   ⟨"SRLI", 0xFE00707F#32, 0x00005013#32⟩,
   ⟨"SRAI", 0xFE00707F#32, 0x40005013#32⟩]

def rowsOp : List OpcodeRow :=
  [⟨"ADD", 0xFE00707F#32, 0x00000033#32⟩,
   ⟨"SUB", 0xFE00707F#32, 0x40000033#32⟩,
   ⟨"SLL", 0xFE00707F#32, 0x00001033#32⟩,
   ⟨"SLT", 0xFE00707F#32, 0x00002033#32⟩,
   ⟨"SLTU", 0xFE00707F#32, 0x00003033#32⟩,
   ⟨"XOR", 0xFE00707F#32, 0x00004033#32⟩,
   ⟨"SRL", 0xFE00707F#32, 0x00005033#32⟩,
   ⟨"SRA", 0xFE00707F#32, 0x40005033#32⟩,
   ⟨"OR", 0xFE00707F#32, 0x00006033#32⟩,
   ⟨"AND", 0xFE00707F#32, 0x00007033#32⟩]

def rowsCsr : List OpcodeRow :=
  [⟨"CSRRW", 0x0000707F#32, 0x00001073#32⟩,
   ⟨"CSRRS", 0x0000707F#32, 0x00002073#32⟩,
   ⟨"CSRRC", 0x0000707F#32, 0x00003073#32⟩,
   ⟨"CSRRWI", 0x0000707F#32, 0x00005073#32⟩,
   ⟨"CSRRSI", 0x0000707F#32, 0x00006073#32⟩,
   ⟨"CSRRCI", 0x0000707F#32, 0x00007073#32⟩]

/-- All 37 rows, in the table's order. -/
def opcodeTable : List OpcodeRow :=
  rowsUpper ++ rowsJump ++ rowsLoad ++ rowsStore ++ rowsOpImm ++ rowsOp ++ rowsCsr

/-- The row's name for each instruction. -/
def Instr.mnemonic : Instr → String
  | .lui _ _ => "LUI"
  | .auipc _ _ => "AUIPC"
  | .jal _ _ => "JAL"
  | .jalr _ _ _ => "JALR"
  | .lb _ _ _ => "LB"
  | .lh _ _ _ => "LH"
  | .lw _ _ _ => "LW"
  | .lbu _ _ _ => "LBU"
  | .lhu _ _ _ => "LHU"
  | .sb _ _ _ => "SB"
  | .sh _ _ _ => "SH"
  | .sw _ _ _ => "SW"
  | .addi _ _ _ => "ADDI"
  | .slti _ _ _ => "SLTI"
  | .sltiu _ _ _ => "SLTIU"
  | .xori _ _ _ => "XORI"
  | .ori _ _ _ => "ORI"
  | .andi _ _ _ => "ANDI"
  | .slli _ _ _ => "SLLI"
  | .srli _ _ _ => "SRLI"
  | .srai _ _ _ => "SRAI"
  | .add _ _ _ => "ADD"
  | .sub _ _ _ => "SUB"
  | .sll _ _ _ => "SLL"
  | .slt _ _ _ => "SLT"
  | .sltu _ _ _ => "SLTU"
  | .xor _ _ _ => "XOR"
  | .srl _ _ _ => "SRL"
  | .sra _ _ _ => "SRA"
  | .or _ _ _ => "OR"
  | .and _ _ _ => "AND"
  | .csrrw _ _ _ => "CSRRW"
  | .csrrs _ _ _ => "CSRRS"
  | .csrrc _ _ _ => "CSRRC"
  | .csrrwi _ _ _ => "CSRRWI"
  | .csrrsi _ _ _ => "CSRRSI"
  | .csrrci _ _ _ => "CSRRCI"

end Sys2Proof
end

