-- ==== Sys2Proof/Machine/Sparse.lean ====
section
/-! DEFINITION. A map from addresses to values, held as the list of its entries that differ from a default: the one representation of memory and of the CSR bank (spec/10_state.md R32, R38). -/

namespace Sys2Proof

variable {β : Type} [DecidableEq β]

/-- The value at address `a`; an unlisted address holds `d`. -/
def Sparse.get (d : β) : List (Nat × β) → Nat → β
  | [], _ => d
  | (k, v) :: rest, a => if a = k then v else Sparse.get d rest a

/-- The entry for `a` put before `rest`, or nothing where the value is the default. -/
def Sparse.cons (d : β) (a : Nat) (v : β) (rest : List (Nat × β)) : List (Nat × β) :=
  if v = d then rest else (a, v) :: rest

/-- Address `a` set to `v`, the list kept in its canonical form. -/
def Sparse.put (d : β) : List (Nat × β) → Nat → β → List (Nat × β)
  | [], a, v => Sparse.cons d a v []
  | (k, u) :: rest, a, v =>
    if a < k then Sparse.cons d a v ((k, u) :: rest)
    else if a = k then Sparse.cons d a v rest
    else (k, u) :: Sparse.put d rest a v

/-- The canonical form: addresses strictly rising, and no entry equal to what an unlisted address holds. -/
abbrev Sparse.wf (d : β) (m : List (Nat × β)) : Prop :=
  m.Pairwise (fun x y => x.1 < y.1) ∧ ∀ e ∈ m, e.2 ≠ d

end Sys2Proof
end

