-- ==== Sys2Proof/Machine/Memory.lean ====
section
/-! DEFINITION. Bytes of memory and the little-endian accesses built from them (spec/20_memory.md R50 to R57), with no bounds check: MemRead and MemWrite of Machine/Ops.lean add it. -/

namespace Sys2Proof

/-- DESIGN CHOICE (log entry 5): what a byte that is not listed reads as. INIT_MEM gives every byte a value (R39), and a
list of the bytes that differ from 0 describes any INIT_MEM. -/
def Memory.unlisted : Byte := 0#8

/-- The byte at address `a`, with no bounds check: at or beyond MEM_SIZE, where no byte exists (R50), the answer for a byte
that is not listed, 0 (DESIGN CHOICE, log entry 18). -/
def Memory.byte (m : Memory) (a : Nat) : Byte := Sparse.get Memory.unlisted m a

/-- The byte at address `a` set to `v`. -/
def Memory.setByte (m : Memory) (a : Nat) (v : Byte) : Memory := Sparse.put Memory.unlisted m a v

/-- The canonical form of a memory, all of whose entries lie below `size`. -/
abbrev Memory.wf (size : Nat) (m : Memory) : Prop :=
  Sparse.wf Memory.unlisted m ∧ ∀ e ∈ m, e.1 < size

/-- The 2 bytes at `a`, little-endian (R53, R57). -/
def Memory.half (m : Memory) (a : Nat) : BitVec 16 := m.byte (a + 1) ++ m.byte a

/-- The 4 bytes at `a`, little-endian (R53, R57). -/
def Memory.word (m : Memory) (a : Nat) : Word :=
  wordOfBytes (m.byte a) (m.byte (a + 1)) (m.byte (a + 2)) (m.byte (a + 3))

/-- The low byte of `v` at `a` (R54). -/
def Memory.setLow8 (m : Memory) (a : Nat) (v : Word) : Memory := m.setByte a (byte0 v)

/-- The low half of `v` at `a`, little-endian (R54). -/
def Memory.setLow16 (m : Memory) (a : Nat) (v : Word) : Memory :=
  (m.setByte a (byte0 v)).setByte (a + 1) (byte1 v)

/-- All of `v` at `a`, little-endian (R54). -/
def Memory.setWord (m : Memory) (a : Nat) (v : Word) : Memory :=
  (((m.setByte a (byte0 v)).setByte (a + 1) (byte1 v)).setByte (a + 2) (byte2 v)).setByte (a + 3) (byte3 v)

/-- The bytes at `a .. a + n - 1`, lowest address first: the memory accessor of R43. The spec does not say
what it answers for an address at or beyond MEM_SIZE; here it answers 0 (DESIGN CHOICE, log entry 18). -/
def Memory.range (m : Memory) (a : Nat) : Nat → List Byte
  | 0 => []
  | n + 1 => m.byte a :: Memory.range m (a + 1) n

end Sys2Proof
end

