-- ==== Sys2Proof/Machine/Params.lean ====
section
/-! DEFINITION. The construction parameters State.reset is built from. Every value here is the model's choice (the spec leaves the parameters OPEN, spec/00_scope.md R7) but MISALIGNED_DATA, whose normative value is the spec's. -/

namespace Sys2Proof.Machine

/-- DESIGN CHOICE (log entries 2, 6, 7): MEM_SIZE is the whole 32-bit address space, every CSR address is registered,
and MISALIGNED_DATA is `permit`, its normative value (R7, R58). -/
def resetConfig : Config where
  memSize        := 4294967296
  misalignedData := .permit
  csrRanges      := [⟨0x000#12, 0xFFF#12⟩]

/-- DESIGN CHOICE (log entries 3, 4, 5, 6): INIT_X, INIT_MEM and CSR_INIT are zero, and INIT_PC is 0, the value the
source's examples use (R31, R291). -/
def resetParams : Params where
  cfg     := resetConfig
  initMem := []
  initX   := Vector.replicate 31 0#32
  initPc  := 0#32
  csrInit := []

end Sys2Proof.Machine
end

