-- ==== Sys2Proof/Machine/State.lean ====
section
/-! DEFINITION. The architectural state (spec/10_state.md R20), the errors a step can return (spec/60_exceptions.md R261), and the state after reset (spec/70_reset_and_hazards.md R291). -/

namespace Sys2Proof.Machine

/-- The whole state: "exactly four parts" (R20), and the construction-time configuration, which no step changes (R21). -/
structure State where
  /-- MEM_SIZE, MISALIGNED_DATA and the registered CSR addresses (R7, R21) -/
  cfg  : Config
  /-- the program counter (R28) -/
  pc   : Word
  /-- x1 .. x31, x1 first; x0 has no storage (R20, R22) -/
  regs : Vector Word 31
  /-- the CSR bank (R32) -/
  csrs : CsrBank
  /-- memory (R38) -/
  mem  : Memory
  deriving DecidableEq, Repr

/-- The errors of R261, in the order of their codes 1 to 7, each with the information R261 records. All are the spec's own
errors: the state is left as it was before the step (R127). Safe: a fault ends the run (R128, D12), so the model never
goes on where the block stops. -/
inductive Fault where
  /-- code 1, raised by the fetch of any step when unsigned(pc) + 4 > MEM_SIZE (R121). Safe. -/
  | fetchOutOfBounds (pc : Word)
  /-- code 2, raised by decode of an RV32I encoding the source excludes by name (R97). Safe. -/
  | decodeNotImplemented (pc word : Word)
  /-- code 3, raised by decode of any other word that matches no row (R98). Safe. -/
  | decodeMalformed (pc word : Word)
  /-- code 4, raised by a load or a store that is out of range (R52). Safe. -/
  | execMemOutOfBounds (pc word ea : Word) (width : Width)
  /-- code 5, raised by a misaligned Half or Word load or store, only under MISALIGNED_DATA = fault (R183). Safe. -/
  | execMisalignedAccess (pc word ea : Word) (width : Width)
  /-- code 6, raised by a CSR instruction at an unregistered address (R230). Safe. -/
  | execUnsupportedCsr (pc word : Word) (csr : CsrAddr)
  /-- code 7, raised by JAL and JALR when the target is not a multiple of 4 (R201). Safe. -/
  | execMisalignedJumpTarget (pc word target : Word)
  deriving DecidableEq, Repr

/-- What the model itself declines. No step of this model is refused. -/
inductive Refusal where
  /-- an instruction with no meaning yet, raised by its arm of `exec`; no arm raises it. Safe. -/
  | notModelled (mnemonic : String)
  /-- raised by `State.construct` when INIT_PC is not a multiple of 4 (R31, R290). Safe. -/
  | initPcMisaligned (initPc : Word)
  /-- raised by `State.construct` when MEM_SIZE > 2^32, or INIT_MEM or CSR_INIT is no map in the listed form (log entry 15). Safe. -/
  | badParameters
  deriving DecidableEq, Repr

/-- The state the parameters describe (R291). -/
def State.ofParams (p : Params) : State where
  cfg  := p.cfg
  pc   := p.initPc
  regs := p.initX
  csrs := p.csrInit
  mem  := p.initMem

/-- The machine right after reset: reset is construction (R290), here from `resetParams` (log entries 1 to 7). -/
def State.reset : State := State.ofParams resetParams

end Sys2Proof.Machine
end

