-- ==== Sys2Proof/Machine/Ops.lean ====
section
/-! DEFINITION. The named operations over the state: registers, pc, CSR bank, memory accesses with their checks, raising an error, construction. An error takes no trap (spec/60_exceptions.md R260, R266): it ends the step and changes nothing. -/

namespace Sys2Proof.Machine

/-- What one instruction answers. -/
abbrev Result := Host.Outcome State Fault Refusal

/-! ### Registers (R12, R23, R24) -/

/-- x1 is stored first: the place of register `r`, which is not x0. -/
theorem regSlot_lt {r : RegIdx} (h : r ≠ 0#5) : r.toNat - 1 < 31 := by
  have : r.toNat ≠ 0 := fun e => h (BitVec.eq_of_toNat_eq (by simpa using e))
  omega

/-- `x[r]`: x0 reads 0 (R23). -/
def State.reg (s : State) (r : RegIdx) : Word :=
  if h : r = 0#5 then 0#32 else s.regs[r.toNat - 1]'(regSlot_lt h)

/-- `x[r] <- v`: a write to x0 is discarded (R23). -/
def State.setReg (s : State) (r : RegIdx) (v : Word) : State :=
  if h : r = 0#5 then s else { s with regs := s.regs.set (r.toNat - 1) v (regSlot_lt h) }

/-! ### Program counter (R124, R125) -/

/-- Redirect: the next pc is `target`. -/
def State.setPc (s : State) (target : Word) : State := { s with pc := target }

/-- Advance: pc + 4 modulo 2^32. -/
def State.advance (s : State) : State := s.setPc (s.pc + 4#32)

/-- The end of a non-jump instruction whose only result is `v` in `rd` (R124). -/
def State.writeResult (s : State) (rd : RegIdx) (v : Word) : Result := .next (s.setReg rd v).advance

/-! ### CSR bank (R32 to R35) -/

/-- DESIGN CHOICE (log entry 6): what a registered CSR that is not listed holds. -/
def CsrBank.unlisted : Word := 0#32

/-- Address `a` lies in the range. -/
def inCsrRange (a : CsrAddr) (r : CsrRange) : Bool := decide (r.first.toNat ≤ a.toNat) && decide (a.toNat ≤ r.last.toNat)

/-- Address `a` is registered (R32). -/
def csrRegistered (c : Config) (a : CsrAddr) : Bool := c.csrRanges.any (inCsrRange a)

/-- The canonical form of a CSR bank, all of whose entries are registered. -/
abbrev CsrBank.wf (c : Config) (b : CsrBank) : Prop :=
  Sparse.wf CsrBank.unlisted b ∧ ∀ e ∈ b, e.1 < 4096 ∧ csrRegistered c (BitVec.ofNat 12 e.1) = true

/-- `CsrRead(a)`: none where R33 raises UnsupportedCsr. -/
def State.csrRead (s : State) (a : CsrAddr) : Option Word :=
  if csrRegistered s.cfg a then some (Sparse.get CsrBank.unlisted s.csrs a.toNat) else none

/-- `CsrWrite(a, v)` (R34); only reached with a registered address. -/
def State.csrWrite (s : State) (a : CsrAddr) (v : Word) : State :=
  { s with csrs := Sparse.put CsrBank.unlisted s.csrs a.toNat v }

/-! ### Memory accesses (R52 to R55) -/

/-- The number of bytes of an access (R51). -/
def bytesOf : Width → Nat
  | .byte => 1
  | .half => 2
  | .word => 4

/-- The byte of memory at address `a`, as `Memory.byte` answers it, 0 at or beyond MEM_SIZE included (DESIGN CHOICE, log
entry 18). -/
def State.byte (s : State) (a : Nat) : Byte := s.mem.byte a

/-- The access is refused for its alignment: only under MISALIGNED_DATA = fault (R58). -/
def misaligned (c : Config) (ea : Word) (width : Width) : Bool :=
  decide (c.misalignedData = .fault) && decide (ea.toNat % bytesOf width ≠ 0)

/-- R52: the sum is taken on unbounded naturals. -/
def outOfBounds (c : Config) (ea : Word) (width : Width) : Bool :=
  decide (ea.toNat + bytesOf width > c.memSize)

/-- The error of the access, alignment before bounds (R53, R54, R264); `word` is the instruction reported. -/
def State.accessFault (s : State) (word ea : Word) (width : Width) : Option Fault :=
  if misaligned s.cfg ea width then some (.execMisalignedAccess s.pc word ea width)
  else if outOfBounds s.cfg ea width then some (.execMemOutOfBounds s.pc word ea width)
  else none

/-- The value of a load that is in range, extended to a Word (R53, R55). -/
def loadValue (m : Memory) (ea : Nat) : Width → Extension → Word
  | .byte, .signed   => sext (m.byte ea)
  | .byte, .unsigned => zext (m.byte ea)
  | .half, .signed   => sext (m.half ea)
  | .half, .unsigned => zext (m.half ea)
  | .word, _         => m.word ea

/-- The memory after a store that is in range: the low bytes of `v` (R54). -/
def storeValue (m : Memory) (ea : Nat) (v : Word) : Width → Memory
  | .byte => m.setLow8 ea v
  | .half => m.setLow16 ea v
  | .word => m.setWord ea v

/-- A load (R180): the access is checked for every `rd`, x0 included. -/
def State.load (s : State) (word : Word) (rd : RegIdx) (ea : Word) (width : Width) (x : Extension) : Result :=
  match s.accessFault word ea width with
  | some f => .fault f
  | none => s.writeResult rd (loadValue s.mem ea.toNat width x)

/-- A store (R181): it writes all its bytes, or raises and writes none. -/
def State.store (s : State) (word ea v : Word) (width : Width) : Result :=
  match s.accessFault word ea width with
  | some f => .fault f
  | none => .next ({ s with mem := storeValue s.mem ea.toNat v width } : State).advance

/-! ### Jumps (R200, R201) -/

/-- Link and redirect, after the alignment check of the target. -/
def State.jump (s : State) (word : Word) (rd : RegIdx) (target : Word) : Result :=
  if target.extractLsb' 0 2 ≠ 0#2 then .fault (.execMisalignedJumpTarget s.pc word target)
  else .next ((s.setReg rd (s.pc + 4#32)).setPc target)

/-! ### CSR read-modify-write (R230, R232) -/

/-- The old value `t` goes to `rd` and `new t` to the CSR; an unregistered address raises, whatever `rd` is (D7). The write
is always made (R233). -/
def State.csrUpdate (s : State) (word : Word) (rd : RegIdx) (csr : CsrAddr) (new : Word → Word) : Result :=
  match s.csrRead csr with
  | none => .fault (.execUnsupportedCsr s.pc word csr)
  | some t => (s.csrWrite csr (new t)).writeResult rd t

/-! ### Fetch (R121) -/

/-- The word at pc, little-endian; none where the fetch raises MemOutOfBounds. It makes no alignment check: pc is a
multiple of 4 in every reachable state (R59; log entry 11). -/
def State.fetch (s : State) : Option Word :=
  if s.pc.toNat + 4 > s.cfg.memSize then none else some (s.mem.word s.pc.toNat)

/-! ### What an error reports (R261, R262) -/

/-- The code of R261. -/
def faultCode : Fault → Nat
  | .fetchOutOfBounds _ => 1
  | .decodeNotImplemented _ _ => 2
  | .decodeMalformed _ _ => 3
  | .execMemOutOfBounds _ _ _ _ => 4
  | .execMisalignedAccess _ _ _ _ => 5
  | .execUnsupportedCsr _ _ _ => 6
  | .execMisalignedJumpTarget _ _ _ => 7

/-- The failing pc. -/
def faultPc : Fault → Word
  | .fetchOutOfBounds pc => pc
  | .decodeNotImplemented pc _ => pc
  | .decodeMalformed pc _ => pc
  | .execMemOutOfBounds pc _ _ _ => pc
  | .execMisalignedAccess pc _ _ _ => pc
  | .execUnsupportedCsr pc _ _ => pc
  | .execMisalignedJumpTarget pc _ _ => pc

/-- The instruction word, absent for code 1. -/
def faultWord : Fault → Option Word
  | .fetchOutOfBounds _ => none
  | .decodeNotImplemented _ w => some w
  | .decodeMalformed _ w => some w
  | .execMemOutOfBounds _ w _ _ => some w
  | .execMisalignedAccess _ w _ _ => some w
  | .execUnsupportedCsr _ w _ => some w
  | .execMisalignedJumpTarget _ w _ => some w

/-! ### Construction (R290, R291) -/

/-- MEM_SIZE is at most 2^32 (R7), and INIT_MEM and CSR_INIT are maps in the listed form, within MEM_SIZE and within the
registered addresses. -/
abbrev goodParams (p : Params) : Prop :=
  p.cfg.memSize ≤ 4294967296 ∧ Memory.wf p.cfg.memSize p.initMem ∧ CsrBank.wf p.cfg p.csrInit

/-- Construction takes the parameters of R7 and refuses an INIT_PC that is not a multiple of 4 (R31, R290). -/
def State.construct (p : Params) : Result :=
  if p.initPc.toNat % 4 ≠ 0 then .refused (.initPcMisaligned p.initPc)
  else if ¬ goodParams p then .refused .badParameters
  else .next (State.ofParams p)

end Sys2Proof.Machine
end

