-- ==== Sys2Proof/Machine/Operands.lean ====
section
/-! DEFINITION. The operand forms: effective addresses, jump targets, shift amounts (spec/42_load_store.md R180 to R182, spec/43_jumps.md R200, spec/41_alu.md R142). -/

namespace Sys2Proof.Machine

/-- EA of a load or store: base register plus the sign-extended offset, modulo 2^32 (R180, R181). -/
def State.ea (s : State) (rs1 : RegIdx) (imm : Word) : Word := s.reg rs1 + imm

/-- Target of JAL, modulo 2^32 (R202). -/
def State.jalTarget (s : State) (immJ : Word) : Word := s.pc + immJ

/-- Target of JALR: bit 0 of the sum is cleared (R203). -/
def State.jalrTarget (s : State) (rs1 : RegIdx) (immI : Word) : Word := (s.reg rs1 + immI) &&& 0xFFFFFFFE#32

/-- A register shift uses only the low 5 bits of the amount (R142). -/
def shiftAmount (v : Word) : BitVec 5 := v.extractLsb' 0 5

/-- `a << n`, zero-filling (R10). -/
def shiftLeft (a : Word) (n : BitVec 5) : Word := a <<< n.toNat

/-- `a >>u n`, zero-filling (R10). -/
def shiftRightLogical (a : Word) (n : BitVec 5) : Word := a >>> n.toNat

/-- `a >>s n`, filling with copies of bit 31 (R10). -/
def shiftRightArith (a : Word) (n : BitVec 5) : Word := a.sshiftRight n.toNat

end Sys2Proof.Machine
end

