-- ==== Sys2Proof/Machine/Alu.lean ====
section
/-! DEFINITION. Meanings of the ALU instructions (spec/41_alu.md). None raises an error once decoded (R144, R263). -/

namespace Sys2Proof.Machine

/-! ### Register-register (R145 to R154) -/

/-- R145: `x[rd] <- x[rs1] + x[rs2]` modulo 2^32. -/
def execAdd (rd rs1 rs2 : RegIdx) (s : State) : Result := s.writeResult rd (s.reg rs1 + s.reg rs2)
/-- R146: `x[rd] <- x[rs1] - x[rs2]` modulo 2^32. -/
def execSub (rd rs1 rs2 : RegIdx) (s : State) : Result := s.writeResult rd (s.reg rs1 - s.reg rs2)
/-- R147: signed less-than. -/
def execSlt (rd rs1 rs2 : RegIdx) (s : State) : Result := s.writeResult rd (lessSigned (s.reg rs1) (s.reg rs2))
/-- R148: unsigned less-than. -/
def execSltu (rd rs1 rs2 : RegIdx) (s : State) : Result := s.writeResult rd (lessUnsigned (s.reg rs1) (s.reg rs2))
/-- R149: bitwise exclusive or. -/
def execXor (rd rs1 rs2 : RegIdx) (s : State) : Result := s.writeResult rd (s.reg rs1 ^^^ s.reg rs2)
/-- R150: shift left logical by the low 5 bits of x[rs2]. -/
def execSll (rd rs1 rs2 : RegIdx) (s : State) : Result := s.writeResult rd (shiftLeft (s.reg rs1) (shiftAmount (s.reg rs2)))
/-- R151: shift right logical by the low 5 bits of x[rs2]. -/
def execSrl (rd rs1 rs2 : RegIdx) (s : State) : Result := s.writeResult rd (shiftRightLogical (s.reg rs1) (shiftAmount (s.reg rs2)))
/-- R152: shift right arithmetic by the low 5 bits of x[rs2]. -/
def execSra (rd rs1 rs2 : RegIdx) (s : State) : Result := s.writeResult rd (shiftRightArith (s.reg rs1) (shiftAmount (s.reg rs2)))
/-- R153: bitwise or. -/
def execOr (rd rs1 rs2 : RegIdx) (s : State) : Result := s.writeResult rd (s.reg rs1 ||| s.reg rs2)
/-- R154: bitwise and. -/
def execAnd (rd rs1 rs2 : RegIdx) (s : State) : Result := s.writeResult rd (s.reg rs1 &&& s.reg rs2)

/-! ### Register-immediate (R155 to R163) -/

/-- R155: `x[rd] <- x[rs1] + immI` modulo 2^32. -/
def execAddi (rd rs1 : RegIdx) (immI : Word) (s : State) : Result := s.writeResult rd (s.reg rs1 + immI)
/-- R156: signed less-than against the immediate. -/
def execSlti (rd rs1 : RegIdx) (immI : Word) (s : State) : Result := s.writeResult rd (lessSigned (s.reg rs1) immI)
/-- R157: unsigned less-than against the sign-extended immediate (R143). -/
def execSltiu (rd rs1 : RegIdx) (immI : Word) (s : State) : Result := s.writeResult rd (lessUnsigned (s.reg rs1) immI)
/-- R158: bitwise exclusive or. -/
def execXori (rd rs1 : RegIdx) (immI : Word) (s : State) : Result := s.writeResult rd (s.reg rs1 ^^^ immI)
/-- R159: bitwise or. -/
def execOri (rd rs1 : RegIdx) (immI : Word) (s : State) : Result := s.writeResult rd (s.reg rs1 ||| immI)
/-- R160: bitwise and. -/
def execAndi (rd rs1 : RegIdx) (immI : Word) (s : State) : Result := s.writeResult rd (s.reg rs1 &&& immI)
/-- R161: shift left logical by shamt. -/
def execSlli (rd rs1 : RegIdx) (shamt : BitVec 5) (s : State) : Result := s.writeResult rd (shiftLeft (s.reg rs1) shamt)
/-- R162: shift right logical by shamt. -/
def execSrli (rd rs1 : RegIdx) (shamt : BitVec 5) (s : State) : Result := s.writeResult rd (shiftRightLogical (s.reg rs1) shamt)
/-- R163: shift right arithmetic by shamt. -/
def execSrai (rd rs1 : RegIdx) (shamt : BitVec 5) (s : State) : Result := s.writeResult rd (shiftRightArith (s.reg rs1) shamt)

end Sys2Proof.Machine
end

