-- ==== Sys2Proof/Machine/Csr.lean ====
section
/-! DEFINITION. Meanings of the CSR instructions (spec/45_csr.md). The source register is read before `rd` is written (R231); `zimm` is zero-extended (R95). -/

namespace Sys2Proof.Machine

/-- R234. -/
def execCsrrw (rd rs1 : RegIdx) (csr : CsrAddr) (s : State) : Result :=
  s.csrUpdate (encode (.csrrw rd rs1 csr)) rd csr (fun _ => s.reg rs1)
/-- R235. -/
def execCsrrs (rd rs1 : RegIdx) (csr : CsrAddr) (s : State) : Result :=
  s.csrUpdate (encode (.csrrs rd rs1 csr)) rd csr (fun t => t ||| s.reg rs1)
/-- R236. -/
def execCsrrc (rd rs1 : RegIdx) (csr : CsrAddr) (s : State) : Result :=
  s.csrUpdate (encode (.csrrc rd rs1 csr)) rd csr (fun t => t &&& ~~~ s.reg rs1)
/-- R237. -/
def execCsrrwi (rd : RegIdx) (zimm : BitVec 5) (csr : CsrAddr) (s : State) : Result :=
  s.csrUpdate (encode (.csrrwi rd zimm csr)) rd csr (fun _ => zext zimm)
/-- R238. -/
def execCsrrsi (rd : RegIdx) (zimm : BitVec 5) (csr : CsrAddr) (s : State) : Result :=
  s.csrUpdate (encode (.csrrsi rd zimm csr)) rd csr (fun t => t ||| zext zimm)
/-- R239. -/
def execCsrrci (rd : RegIdx) (zimm : BitVec 5) (csr : CsrAddr) (s : State) : Result :=
  s.csrUpdate (encode (.csrrci rd zimm csr)) rd csr (fun t => t &&& ~~~ zext zimm)

end Sys2Proof.Machine
end

