-- ==== Sys2Proof/Machine/Jumps.lean ====
section
/-! DEFINITION. Meanings of JAL and JALR (spec/43_jumps.md). -/

namespace Sys2Proof.Machine

/-- R202. -/
def execJal (rd : RegIdx) (immJ : Word) (s : State) : Result :=
  s.jump (encode (.jal rd immJ)) rd (s.jalTarget immJ)
/-- R203: the target comes from the old x[rs1] (R200). -/
def execJalr (rd rs1 : RegIdx) (immI : Word) (s : State) : Result :=
  s.jump (encode (.jalr rd rs1 immI)) rd (s.jalrTarget rs1 immI)

end Sys2Proof.Machine
end

