-- ==== Sys2Proof/Machine/LoadStore.lean ====
section
/-! DEFINITION. Meanings of the loads and stores (spec/42_load_store.md). Each reports its own instruction word when it raises (spec/60_exceptions.md R262): `encode` of the instruction, which is the word it was decoded from (log entry 12). -/

namespace Sys2Proof.Machine

/-- R184. -/
def execLb (rd rs1 : RegIdx) (immI : Word) (s : State) : Result :=
  s.load (encode (.lb rd rs1 immI)) rd (s.ea rs1 immI) .byte .signed
/-- R185. -/
def execLh (rd rs1 : RegIdx) (immI : Word) (s : State) : Result :=
  s.load (encode (.lh rd rs1 immI)) rd (s.ea rs1 immI) .half .signed
/-- R186: no extension applies to a Word. -/
def execLw (rd rs1 : RegIdx) (immI : Word) (s : State) : Result :=
  s.load (encode (.lw rd rs1 immI)) rd (s.ea rs1 immI) .word .signed
/-- R187. -/
def execLbu (rd rs1 : RegIdx) (immI : Word) (s : State) : Result :=
  s.load (encode (.lbu rd rs1 immI)) rd (s.ea rs1 immI) .byte .unsigned
/-- R188. -/
def execLhu (rd rs1 : RegIdx) (immI : Word) (s : State) : Result :=
  s.load (encode (.lhu rd rs1 immI)) rd (s.ea rs1 immI) .half .unsigned

/-- R189. -/
def execSb (rs1 rs2 : RegIdx) (immS : Word) (s : State) : Result :=
  s.store (encode (.sb rs1 rs2 immS)) (s.ea rs1 immS) (s.reg rs2) .byte
/-- R190. -/
def execSh (rs1 rs2 : RegIdx) (immS : Word) (s : State) : Result :=
  s.store (encode (.sh rs1 rs2 immS)) (s.ea rs1 immS) (s.reg rs2) .half
/-- R191. -/
def execSw (rs1 rs2 : RegIdx) (immS : Word) (s : State) : Result :=
  s.store (encode (.sw rs1 rs2 immS)) (s.ea rs1 immS) (s.reg rs2) .word

end Sys2Proof.Machine
end

