-- ==== Sys2Proof/Machine/Upper.lean ====
section
/-! DEFINITION. Meanings of LUI and AUIPC (spec/44_upper_immediate.md). -/

namespace Sys2Proof.Machine

/-- R220. -/
def execLui (rd : RegIdx) (immU : Word) (s : State) : Result := s.writeResult rd immU
/-- R221: the pc read is the AUIPC's own address (R29). -/
def execAuipc (rd : RegIdx) (immU : Word) (s : State) : Result := s.writeResult rd (s.pc + immU)

end Sys2Proof.Machine
end

