-- ==== Sys2Proof/Machine/Dispatch.lean ====
section
/-! DEFINITION. Execute (spec/40_execution_cycle.md R123): one arm per instruction, each one call of its meaning. -/

namespace Sys2Proof.Machine

def exec (i : Instr) (s : State) : Host.Outcome State Fault Refusal :=
  match i with
  | .lui rd immU => Sys2Proof.Machine.execLui rd immU s
  | .auipc rd immU => Sys2Proof.Machine.execAuipc rd immU s
  | .jal rd immJ => Sys2Proof.Machine.execJal rd immJ s
  | .jalr rd rs1 immI => Sys2Proof.Machine.execJalr rd rs1 immI s
  | .lb rd rs1 immI => Sys2Proof.Machine.execLb rd rs1 immI s
  | .lh rd rs1 immI => Sys2Proof.Machine.execLh rd rs1 immI s
  | .lw rd rs1 immI => Sys2Proof.Machine.execLw rd rs1 immI s
  | .lbu rd rs1 immI => Sys2Proof.Machine.execLbu rd rs1 immI s
  | .lhu rd rs1 immI => Sys2Proof.Machine.execLhu rd rs1 immI s
  | .sb rs1 rs2 immS => Sys2Proof.Machine.execSb rs1 rs2 immS s
  | .sh rs1 rs2 immS => Sys2Proof.Machine.execSh rs1 rs2 immS s
  | .sw rs1 rs2 immS => Sys2Proof.Machine.execSw rs1 rs2 immS s
  | .addi rd rs1 immI => Sys2Proof.Machine.execAddi rd rs1 immI s
  | .slti rd rs1 immI => Sys2Proof.Machine.execSlti rd rs1 immI s
  | .sltiu rd rs1 immI => Sys2Proof.Machine.execSltiu rd rs1 immI s
  | .xori rd rs1 immI => Sys2Proof.Machine.execXori rd rs1 immI s
  | .ori rd rs1 immI => Sys2Proof.Machine.execOri rd rs1 immI s
  | .andi rd rs1 immI => Sys2Proof.Machine.execAndi rd rs1 immI s
  | .slli rd rs1 shamt => Sys2Proof.Machine.execSlli rd rs1 shamt s
  | .srli rd rs1 shamt => Sys2Proof.Machine.execSrli rd rs1 shamt s
  | .srai rd rs1 shamt => Sys2Proof.Machine.execSrai rd rs1 shamt s
  | .add rd rs1 rs2 => Sys2Proof.Machine.execAdd rd rs1 rs2 s
  | .sub rd rs1 rs2 => Sys2Proof.Machine.execSub rd rs1 rs2 s
  | .sll rd rs1 rs2 => Sys2Proof.Machine.execSll rd rs1 rs2 s
  | .slt rd rs1 rs2 => Sys2Proof.Machine.execSlt rd rs1 rs2 s
  | .sltu rd rs1 rs2 => Sys2Proof.Machine.execSltu rd rs1 rs2 s
  | .xor rd rs1 rs2 => Sys2Proof.Machine.execXor rd rs1 rs2 s
  | .srl rd rs1 rs2 => Sys2Proof.Machine.execSrl rd rs1 rs2 s
  | .sra rd rs1 rs2 => Sys2Proof.Machine.execSra rd rs1 rs2 s
  | .or rd rs1 rs2 => Sys2Proof.Machine.execOr rd rs1 rs2 s
  | .and rd rs1 rs2 => Sys2Proof.Machine.execAnd rd rs1 rs2 s
  | .csrrw rd rs1 csr => Sys2Proof.Machine.execCsrrw rd rs1 csr s
  | .csrrs rd rs1 csr => Sys2Proof.Machine.execCsrrs rd rs1 csr s
  | .csrrc rd rs1 csr => Sys2Proof.Machine.execCsrrc rd rs1 csr s
  | .csrrwi rd zimm csr => Sys2Proof.Machine.execCsrrwi rd zimm csr s
  | .csrrsi rd zimm csr => Sys2Proof.Machine.execCsrrsi rd zimm csr s
  | .csrrci rd zimm csr => Sys2Proof.Machine.execCsrrci rd zimm csr s

end Sys2Proof.Machine
end

