-- ==== Sys2Proof/Machine/Step.lean ====
section
/-! DEFINITION. The whole step: fetch, decode, execute, advance (spec/40_execution_cycle.md R120 to R126), and how one instruction word is placed for the next fetch. -/

namespace Sys2Proof.Machine

/-- The error a failed decode is returned as (R122, R261). -/
def decodeFault (pc word : Word) : DecodeError → Fault
  | .notImplemented => .decodeNotImplemented pc word
  | .malformed => .decodeMalformed pc word

/-- One step (R126): the first failing stage gives the error (R264), and the advance is part of each meaning. -/
def step (s : State) : Host.Outcome State Fault Refusal :=
  match s.fetch with
  | none => .fault (.fetchOutOfBounds s.pc)
  | some word =>
    match decode word with
    | .error e => .fault (decodeFault s.pc word e)
    | .ok i => exec i s

/-- `s` with the instruction word `w` stored at pc, in a memory large enough to fetch it (log entry 14). -/
def State.withFetchWord (s : State) (nbits w : Nat) : State :=
  { s with
    cfg := { s.cfg with memSize := max s.cfg.memSize (s.pc.toNat + 4) }
    mem := s.mem.setWord s.pc.toNat (tableWord nbits w) }

end Sys2Proof.Machine
end

