-- ==== Sys2Proof/Machine/Pseudo.lean ====
section
/-! DEFINITION. The pseudo-instructions of spec/30_encoding.md R110 as the instructions they expand to. They are assembly syntax: no word decodes to one, and step runs the expansion's words. -/

namespace Sys2Proof.Machine

/-- R110: lo = `sext_12(imm[11:0])`. -/
def loPart (imm : Word) : Word := sext (low12 imm)

/-- R110: hi = `((imm - lo) >> 12) mod 2^20`, held as the U-immediate it gives (R92). -/
def hiPart (imm : Word) : Word := (imm - loPart imm).extractLsb' 12 20 ++ 0#12

/-- The rows of R110, and the counter reads its last sentence names. `la` takes the distance of its symbol from the first
instruction of the expansion (log entry 19). -/
inductive Pseudo where
  | nop
  | li       (rd : RegIdx) (imm : Word)
  | mv       (rd rs : RegIdx)
  | not      (rd rs : RegIdx)
  | neg      (rd rs : RegIdx)
  | seqz     (rd rs : RegIdx)
  | snez     (rd rs : RegIdx)
  | sltz     (rd rs : RegIdx)
  | sgtz     (rd rs : RegIdx)
  | j        (offset : Word)
  | jal      (offset : Word)
  | jr       (rs : RegIdx)
  | jalr     (rs : RegIdx)
  | ret
  | call     (offset : Word)
  | tail     (offset : Word)
  | la       (rd : RegIdx) (offset : Word)
  | csrr     (rd : RegIdx) (csr : CsrAddr)
  | csrw     (csr : CsrAddr) (rs : RegIdx)
  | csrs     (csr : CsrAddr) (rs : RegIdx)
  | csrc     (csr : CsrAddr) (rs : RegIdx)
  | csrwi    (csr : CsrAddr) (zimm : BitVec 5)
  | csrsi    (csr : CsrAddr) (zimm : BitVec 5)
  | csrci    (csr : CsrAddr) (zimm : BitVec 5)
  | rdcycle   (rd : RegIdx)
  | rdtime    (rd : RegIdx)
  | rdinstret (rd : RegIdx)
  deriving DecidableEq, Repr

/-- The expansion column of R110. -/
def Pseudo.expand : Pseudo → List Instr
  | .nop            => [.addi 0#5 0#5 0#32]
  | .li rd imm      => if fitsImm12 imm then [.addi rd 0#5 imm] else [.lui rd (hiPart imm), .addi rd rd (loPart imm)]
  | .mv rd rs       => [.addi rd rs 0#32]
  | .not rd rs      => [.xori rd rs (-1#32)]
  | .neg rd rs      => [.sub rd 0#5 rs]
  | .seqz rd rs     => [.sltiu rd rs 1#32]
  | .snez rd rs     => [.sltu rd 0#5 rs]
  | .sltz rd rs     => [.slt rd rs 0#5]
  | .sgtz rd rs     => [.slt rd 0#5 rs]
  | .j offset       => [.jal 0#5 offset]
  | .jal offset     => [.jal 1#5 offset]
  | .jr rs          => [.jalr 0#5 rs 0#32]
  | .jalr rs        => [.jalr 1#5 rs 0#32]
  | .ret            => [.jalr 0#5 1#5 0#32]
  | .call offset    => [.auipc 1#5 (hiPart offset), .jalr 1#5 1#5 (loPart offset)]
  | .tail offset    => [.auipc 6#5 (hiPart offset), .jalr 0#5 6#5 (loPart offset)]
  | .la rd offset   => [.auipc rd (hiPart offset), .addi rd rd (loPart offset)]
  | .csrr rd csr    => [.csrrs rd 0#5 csr]
  | .csrw csr rs    => [.csrrw 0#5 rs csr]
  | .csrs csr rs    => [.csrrs 0#5 rs csr]
  | .csrc csr rs    => [.csrrc 0#5 rs csr]
  | .csrwi csr zimm => [.csrrwi 0#5 zimm csr]
  | .csrsi csr zimm => [.csrrsi 0#5 zimm csr]
  | .csrci csr zimm => [.csrrci 0#5 zimm csr]
  | .rdcycle rd     => [.csrrs rd 0#5 0xC00#12]
  | .rdtime rd      => [.csrrs rd 0#5 0xC01#12]
  | .rdinstret rd   => [.csrrs rd 0#5 0xC02#12]

/-- The terms whose expansion some words decode to: the offset of `j` and `jal` must be a J-immediate (R93). -/
def Pseudo.wellFormed : Pseudo → Bool
  | .j offset   => decide (fitsImmJ offset)
  | .jal offset => decide (fitsImmJ offset)
  | .nop | .li _ _ | .mv _ _ | .not _ _ | .neg _ _ | .seqz _ _ | .snez _ _ | .sltz _ _ | .sgtz _ _ | .jr _ | .jalr _ | .ret
  | .call _ | .tail _ | .la _ _ | .csrr _ _ | .csrw _ _ | .csrs _ _ | .csrc _ _ | .csrwi _ _ | .csrsi _ _ | .csrci _ _
  | .rdcycle _ | .rdtime _ | .rdinstret _ => true

/-- The instructions executed one after another; the first that does not complete gives the outcome. -/
def execAll : List Instr → State → Result
  | [], s => .next s
  | i :: rest, s =>
    match exec i s with
    | .next t => execAll rest t
    | .fault f => .fault f
    | .refused r => .refused r

end Sys2Proof.Machine
end

