-- ==== Sys2Proof/Safety.lean ====
section
/-! DEFINITION. The terms claims are stated in: the invariant of a constructed machine, what a caller sees after a step, a safe run, and the groups of instructions the rules name (spec/10_state.md R30, spec/40_execution_cycle.md R127, R128). -/

namespace Sys2Proof.Machine

/-- What holds of every state from construction on: MEM_SIZE is at most 2^32 (R7), pc is a multiple of 4 (R30), memory
and the CSR bank are in canonical form, memory holds nothing at or above MEM_SIZE (R38) and the bank nothing at an
unregistered address (R32). -/
structure State.Inv (s : State) : Prop where
  size   : s.cfg.memSize ≤ 4294967296
  pc     : s.pc.toNat % 4 = 0
  memory : Memory.wf s.cfg.memSize s.mem
  csrs   : CsrBank.wf s.cfg s.csrs

/-- The state a caller finds after one call of step: an error changes nothing (R127). -/
def State.after (s : State) : State :=
  match step s with
  | .next t => t
  | .fault _ => s
  | .refused _ => s

/-- `n` steps from `s` all succeed. -/
def State.SafeFor : Nat → State → Prop
  | 0, _ => True
  | n + 1, s => ∃ t, step s = .next t ∧ State.SafeFor n t

/-- The state `t` is reached from `s` by steps that all succeed. -/
inductive State.Reaches (s : State) : State → Prop where
  | refl : State.Reaches s s
  | step {t u : State} : State.Reaches s t → step t = .next u → State.Reaches s u

/-! ### Groups of instructions, by mnemonic -/

/-- The six CSR instructions (R5). -/
def csrNames : List String := ["CSRRW", "CSRRS", "CSRRC", "CSRRWI", "CSRRSI", "CSRRCI"]
/-- The five loads and the three stores (R5). -/
def loadNames : List String := ["LB", "LH", "LW", "LBU", "LHU"]
def storeNames : List String := ["SB", "SH", "SW"]
/-- The two jumps (R5). -/
def jumpNames : List String := ["JAL", "JALR"]
/-- The 21 instructions R263 lists. -/
def errorFreeNames : List String :=
  ["ADD", "SUB", "SLL", "SLT", "SLTU", "XOR", "SRL", "SRA", "OR", "AND", "ADDI"] ++
  ["SLTI", "SLTIU", "XORI", "ORI", "ANDI", "SLLI", "SRLI", "SRAI", "LUI", "AUIPC"]

end Sys2Proof.Machine
end

