-- ==== Sys2Proof/Certificates/Slice0/Obligations.lean ====
section
/-! DEFINITION. The statements for the provers. Each docstring names the rules of spec/ it formalises. -/

namespace Sys2Proof.Claims

open Sys2Proof.Machine

/-! ### Vocabulary -/

/-- Every word that matches the row decodes to the instruction `f` reads from its fields (R96, R108). -/
def Encodes (mask pattern : Word) (f : Word → Instr) : Prop := ∀ w, w &&& mask = pattern → decode w = .ok (f w)

/-- `rd` holds `v` unless it is x0, and every other register is as before (R23, R24). -/
def RegsAfter (s t : State) (rd : RegIdx) (v : Word) : Prop :=
  ∀ r, t.reg r = if r = rd ∧ r ≠ 0#5 then v else s.reg r

/-- No byte of memory changed. -/
def MemSame (s t : State) : Prop := ∀ a, t.byte a = s.byte a

/-- No CSR changed, and the same addresses are registered. -/
def CsrsSame (s t : State) : Prop := ∀ c, t.csrRead c = s.csrRead c

/-- The instruction completes: `rd` receives `v`, pc becomes `next`, and nothing else changes. -/
def Yields (i : Instr) (s : State) (rd : RegIdx) (v next : Word) : Prop :=
  ∃ t, exec i s = .next t ∧ RegsAfter s t rd v ∧ t.pc = next ∧ MemSame s t ∧ CsrsSame s t ∧ t.cfg = s.cfg

/-- An ALU instruction: it completes on every state and advances pc by 4. -/
def Computes (i : Instr) (rd : RegIdx) (v : State → Word) : Prop := ∀ s, Yields i s rd (v s) (s.pc + 4#32)

/-- The conditions of R53 and R54 on an access of `n` bytes at `ea`: alignment, asked for only under
MISALIGNED_DATA = fault, and the bounds on unbounded naturals. -/
def Aligned (s : State) (ea n : Nat) : Prop := s.cfg.misalignedData = .fault → ea % n = 0
def InBounds (s : State) (ea n : Nat) : Prop := ea + n ≤ s.cfg.memSize

/-- The error of an access that is refused, alignment before bounds (R264), for the instruction `i`. -/
def AccessErrors (i : Instr) (s : State) (ea : Word) (width : Width) (n : Nat) : Prop :=
  (¬ Aligned s ea.toNat n → exec i s = .fault (.execMisalignedAccess s.pc (encode i) ea width)) ∧
  (Aligned s ea.toNat n → ¬ InBounds s ea.toNat n → exec i s = .fault (.execMemOutOfBounds s.pc (encode i) ea width))

/-- A load of `n` bytes at `ea`: it delivers `v` to `rd` and advances, or raises. -/
def Loads (i : Instr) (s : State) (rd : RegIdx) (ea : Word) (width : Width) (n : Nat) (v : Word) : Prop :=
  (Aligned s ea.toNat n → InBounds s ea.toNat n → Yields i s rd v (s.pc + 4#32)) ∧ AccessErrors i s ea width n

/-- A store of the `n` low bytes of `v` at `ea`: it changes those bytes and pc only, or raises. Byte `k` stored is
bits 8k+7:8k of `v` (R54). The clause on bytes has the premise that memory is in its canonical form, which every step
keeps (StepKeepsInvariant). -/
def Stores (i : Instr) (s : State) (ea v : Word) (width : Width) (n : Nat) : Prop :=
  (Aligned s ea.toNat n → InBounds s ea.toNat n →
    ∃ t, exec i s = .next t ∧ (∀ r, t.reg r = s.reg r) ∧ t.pc = s.pc + 4#32 ∧ CsrsSame s t ∧ t.cfg = s.cfg ∧
      (Memory.wf s.cfg.memSize s.mem →
        (∀ k, k < n → t.byte (ea.toNat + k) = v.extractLsb' (8 * k) 8) ∧
        (∀ a, a < ea.toNat ∨ ea.toNat + n ≤ a → t.byte a = s.byte a))) ∧
  AccessErrors i s ea width n

/-- A CSR instruction: at a registered address the CSR's old value goes to `rd` and `new` of it to the CSR, at an
unregistered one it raises, whatever `rd` is (R230). The clause on the CSRs after has the premise that the bank is in its
canonical form, which every step keeps. -/
def Updates (i : Instr) (s : State) (rd : RegIdx) (csr : CsrAddr) (new : Word → Word) : Prop :=
  (∀ old, s.csrRead csr = some old →
    ∃ t, exec i s = .next t ∧ RegsAfter s t rd old ∧ t.pc = s.pc + 4#32 ∧ MemSame s t ∧ t.cfg = s.cfg ∧
      (CsrBank.wf s.cfg s.csrs → ∀ c, t.csrRead c = if c = csr then some (new old) else s.csrRead c)) ∧
  (s.csrRead csr = none → exec i s = .fault (.execUnsupportedCsr s.pc (encode i) csr))

/-- The expansion of `p` completes: `rd` receives `v`, pc becomes `next`, and nothing else changes. -/
def Achieves (p : Pseudo) (s : State) (rd : RegIdx) (v next : Word) : Prop :=
  ∃ t, execAll p.expand s = .next t ∧ RegsAfter s t rd v ∧ t.pc = next ∧ MemSame s t ∧ CsrsSame s t ∧ t.cfg = s.cfg

/-- The expansion of `p` runs to its end on every state, past its own words. -/
def Amounts (p : Pseudo) (rd : RegIdx) (v : State → Word) : Prop :=
  ∀ s, Achieves p s rd (v s) (s.pc + BitVec.ofNat 32 (4 * p.expand.length))

/-- The fields of an instruction word, by the bit positions of R82 to R95. -/
def rdF (w : Word) : RegIdx := w.extractLsb' 7 5
def rs1F (w : Word) : RegIdx := w.extractLsb' 15 5
def rs2F (w : Word) : RegIdx := w.extractLsb' 20 5
def csrF (w : Word) : CsrAddr := w.extractLsb' 20 12
def immIF (w : Word) : Word := (w.extractLsb' 20 12).signExtend 32
def immSF (w : Word) : Word := (w.extractLsb' 25 7 ++ w.extractLsb' 7 5).signExtend 32
def immUF (w : Word) : Word := w.extractLsb' 12 20 ++ 0#12
def immJF (w : Word) : Word :=
  (w.extractLsb' 31 1 ++ w.extractLsb' 12 8 ++ w.extractLsb' 20 1 ++ w.extractLsb' 21 10 ++ 0#1).signExtend 32

/-- The excluded encodings of R97, by opcode and funct3. -/
def Excluded (w : Word) : Prop :=
  (w.extractLsb' 0 7 = 0b1100011#7 ∧ w.extractLsb' 12 3 ∈ [0b000#3, 0b001#3, 0b100#3, 0b101#3, 0b110#3, 0b111#3]) ∨
  (w.extractLsb' 0 7 = 0b0001111#7 ∧ w.extractLsb' 12 3 ∈ [0b000#3, 0b001#3]) ∨
  (w.extractLsb' 0 7 = 0b1110011#7 ∧ w.extractLsb' 12 3 = 0b000#3)

/-- Some row of the opcode table matches the word. -/
def HasRow (w : Word) : Prop := ∃ row ∈ opcodeTable, w &&& row.mask = row.pattern

/-- `f` applied to the next state of an outcome. -/
def onNext (f : State → State) : Host.Outcome State Fault Refusal → Host.Outcome State Fault Refusal
  | .next s => .next (f s)
  | .fault e => .fault e
  | .refused e => .refused e

end Sys2Proof.Claims

open Sys2Proof Sys2Proof.Machine Sys2Proof.Claims

/-! ### Registers, construction, reset -/

/-- R23, R24: a write is read back, x0 reads 0 and discards a write, and no other register or field changes. -/
def Obligations.RegisterWriteThenRead : Prop :=
  ∀ (s : State) (rd : RegIdx) (v : Word),
    RegsAfter s (s.setReg rd v) rd v ∧ (s.setReg rd v).reg 0#5 = 0#32 ∧ s.setReg 0#5 v = s ∧
    (s.setReg rd v).pc = s.pc ∧ (s.setReg rd v).mem = s.mem ∧ (s.setReg rd v).csrs = s.csrs ∧ (s.setReg rd v).cfg = s.cfg

/-- R291: the state after construction, for every piece of state. -/
def Obligations.ConstructionSetsEveryPiece : Prop :=
  ∀ p : Params, p.initPc.toNat % 4 = 0 → goodParams p →
    ∃ s, State.construct p = .next s ∧ s.reg 0#5 = 0#32 ∧
      (∀ (k : Nat) (h : k < 31), s.reg (BitVec.ofNat 5 (k + 1)) = p.initX[k]) ∧
      s.pc = p.initPc ∧ (∀ a, s.byte a = Sparse.get 0#8 p.initMem a) ∧
      (∀ c, s.csrRead c = if csrRegistered p.cfg c then some (Sparse.get 0#32 p.csrInit c.toNat) else none) ∧
      s.cfg = p.cfg

/-- R31, and its decision D3: construction with an INIT_PC that is not a multiple of 4 is refused, and pc otherwise starts at
INIT_PC. -/
def Obligations.ConstructionRefusesMisalignedPc : Prop :=
  ∀ p : Params,
    (p.initPc.toNat % 4 ≠ 0 → State.construct p = .refused (.initPcMisaligned p.initPc)) ∧
    (∀ s, State.construct p = .next s → s.pc = p.initPc ∧ s.pc.toNat % 4 = 0)

/-- The reset state. Its values are the model's choices (log entries 2 to 7), but x0 = 0 (R23) and
MISALIGNED_DATA = permit (R7). -/
def Obligations.ResetStateValues : Prop :=
  State.construct resetParams = .next State.reset ∧ State.reset.pc = 0#32 ∧ (∀ r, State.reset.reg r = 0#32) ∧
  (∀ a, State.reset.byte a = 0#8) ∧ (∀ c, State.reset.csrRead c = some 0#32) ∧
  State.reset.cfg.memSize = 2 ^ 32 ∧ State.reset.cfg.misalignedData = .permit

/-! ### Invariants -/

/-- The reset state satisfies the invariant. -/
def Obligations.ResetSatisfiesInvariant : Prop := State.reset.Inv

/-- Every accepted construction satisfies the invariant. -/
def Obligations.ConstructionSatisfiesInvariant : Prop := ∀ (p : Params) (s : State), State.construct p = .next s → s.Inv

/-- Every step keeps the invariant: pc stays a multiple of 4 (R30), memory stays canonical and below MEM_SIZE (R38), the
CSR bank stays canonical and within the registered addresses (R32), MEM_SIZE stays at most 2^32 (R7). -/
def Obligations.StepKeepsInvariant : Prop := ∀ s t : State, s.Inv → step s = .next t → t.Inv

/-- From R30, which marks it as derived: pc is a multiple of 4 in every state reached from a constructed one. -/
def Obligations.PcAlignedWhereverReached : Prop :=
  ∀ (p : Params) (s t : State), State.construct p = .next s → State.Reaches s t → t.pc.toNat % 4 = 0

/-- R21: MEM_SIZE and the set of registered CSR addresses are fixed; no instruction changes them. -/
def Obligations.StepKeepsConfiguration : Prop :=
  (∀ (i : Instr) (s t : State), exec i s = .next t →
    t.cfg.memSize = s.cfg.memSize ∧ (∀ c, t.csrRead c = none ↔ s.csrRead c = none) ∧ t.cfg = s.cfg) ∧
  (∀ s t : State, step s = .next t → t.cfg = s.cfg)

/-! ### The step -/

/-- From R126 and R123: where the four bytes at pc decode to an instruction, the step is that instruction's execution. -/
def Obligations.StepRunsDecodedInstruction : Prop :=
  ∀ (s : State) (i : Instr), InBounds s s.pc.toNat 4 →
    decode (s.byte (s.pc.toNat + 3) ++ s.byte (s.pc.toNat + 2) ++ s.byte (s.pc.toNat + 1) ++ s.byte s.pc.toNat) = .ok i →
    step s = exec i s

/-- R121: the fetch reads the word at pc, little-endian, or the step returns FetchOutOfBounds. -/
def Obligations.FetchReadsWordAtPc : Prop :=
  ∀ s : State,
    (InBounds s s.pc.toNat 4 → s.fetch =
      some (s.byte (s.pc.toNat + 3) ++ s.byte (s.pc.toNat + 2) ++ s.byte (s.pc.toNat + 1) ++ s.byte s.pc.toNat)) ∧
    (¬ InBounds s s.pc.toNat 4 → step s = .fault (.fetchOutOfBounds s.pc) ∧ s.after = s)

/-- R122: a word that does not decode ends the step with the decode error of its subkind, and nothing changes. -/
def Obligations.DecodeFailureEndsStep : Prop :=
  ∀ (s : State) (w : Word), s.fetch = some w →
    (decode w = .error .notImplemented → step s = .fault (.decodeNotImplemented s.pc w) ∧ s.after = s) ∧
    (decode w = .error .malformed → step s = .fault (.decodeMalformed s.pc w) ∧ s.after = s)

/-- From R262, R127 and R128: a failing step reports the failing pc and the fetched instruction word (absent exactly for
code 1), and no state changes: a second call of step returns the same error (log entry 8). -/
def Obligations.FailingStepReportsPcAndWord : Prop :=
  ∀ (s : State) (f : Fault), step s = .fault f →
    faultPc f = s.pc ∧ faultWord f = s.fetch ∧ (faultCode f = 1 ↔ s.fetch = none) ∧ s.after = s ∧ step s.after = .fault f

/-- From R261: which instructions raise each error. -/
def Obligations.ErrorsComeFromTheirInstructions : Prop :=
  ∀ (i : Instr) (s : State) (f : Fault), exec i s = .fault f →
    (faultCode f = 4 ∧ i.mnemonic ∈ loadNames ++ storeNames) ∨
    (faultCode f = 5 ∧ i.mnemonic ∈ ["LH", "LW", "LHU", "SH", "SW"] ∧ s.cfg.misalignedData = .fault) ∨
    (faultCode f = 6 ∧ i.mnemonic ∈ csrNames) ∨
    (faultCode f = 7 ∧ i.mnemonic ∈ jumpNames)

/-- No step of the model is refused: every instruction has a meaning. -/
def Obligations.NoStepIsRefused : Prop :=
  (∀ (i : Instr) (s : State) (r : Refusal), exec i s ≠ .refused r) ∧ (∀ (s : State) (r : Refusal), step s ≠ .refused r)

/-- A word placed by `withFetchWord` is the one the next step runs (log entry 14). -/
def Obligations.PlacedWordRunsNext : Prop :=
  ∀ (s : State) (nbits w : Nat) (i : Instr), s.Inv → decode (tableWord nbits w) = .ok i →
    step (s.withFetchWord nbits w) = exec i (s.withFetchWord nbits w)

/-! ### Encoding -/

/-- R96: decode answers the instruction of a row that matches, and fails where none does. -/
def Obligations.DecodeFollowsOpcodeTable : Prop :=
  (∀ w, ∀ row ∈ opcodeTable, w &&& row.mask = row.pattern → ∃ i, decode w = .ok i ∧ i.mnemonic = row.mnemonic) ∧
  (∀ w, ¬ HasRow w → ∃ e, decode w = .error e)

/-- No two rows of the opcode table match the same word (the sentence R96 marks as derived). -/
def Obligations.NoTwoRowsMatch : Prop :=
  ∀ w, ∀ a ∈ opcodeTable, ∀ b ∈ opcodeTable, w &&& a.mask = a.pattern → w &&& b.mask = b.pattern → a = b

/-- Which words have subkind NotImplemented: the table of R97, whose boundary is the spec's own decision D11. -/
def Obligations.ExcludedEncodingsNotImplemented : Prop :=
  ∀ w, decode w = .error .notImplemented ↔ Excluded w

/-- Every other word that matches no row is Malformed (R98); among them every M-extension word (R144) and every word whose
low two bits are not 11 (R80). -/
def Obligations.OtherWordsMalformed : Prop :=
  (∀ w, decode w = .error .malformed ↔ ¬ HasRow w ∧ ¬ Excluded w) ∧
  (∀ w : Word, w &&& 0xFE00007F#32 = 0x02000033#32 → decode w = .error .malformed) ∧
  (∀ w : Word, w.extractLsb' 0 2 ≠ 0b11#2 → decode w = .error .malformed)

/-- Decoding the word of a well-formed instruction gives it back, every operand at every value. -/
def Obligations.DecodeOfEncode : Prop := ∀ i : Instr, i.wellFormed = true → decode (encode i) = .ok i

/-- Every word that decodes is the word of the instruction it decodes to, and that instruction is well-formed. -/
def Obligations.EncodeOfDecode : Prop := ∀ (w : Word) (i : Instr), decode w = .ok i → encode i = w ∧ i.wellFormed = true

/-- The words the spec's examples write out decode to the instructions they stand for (R145, R155, R185, R191, R202, R203,
R220, R234, R239). -/
def Obligations.ExampleWordsDecode : Prop :=
  decode 0x003100B3#32 = .ok (.add 1 2 3) ∧ decode 0xFFA10093#32 = .ok (.addi 1 2 (-6)) ∧
  decode 0x00111083#32 = .ok (.lh 1 2 1) ∧ decode 0xFE112FA3#32 = .ok (.sw 2 1 (-1)) ∧
  decode 0x008000EF#32 = .ok (.jal 1 8) ∧ decode 0xFFF280E7#32 = .ok (.jalr 1 5 (-1)) ∧
  decode 0x123450B7#32 = .ok (.lui 1 0x12345000) ∧ decode 0x340110F3#32 = .ok (.csrrw 1 2 0x340) ∧
  decode 0x300FF0F3#32 = .ok (.csrrci 1 31 0x300)

/-! ### ALU -/

/-- R145, R146. -/
def Obligations.AddSubResults : Prop :=
  Encodes 0xFE00707F#32 0x00000033#32 (fun w => .add (rdF w) (rs1F w) (rs2F w)) ∧
  Encodes 0xFE00707F#32 0x40000033#32 (fun w => .sub (rdF w) (rs1F w) (rs2F w)) ∧
  ∀ rd rs1 rs2 : RegIdx,
    Computes (.add rd rs1 rs2) rd (fun s => BitVec.ofNat 32 ((s.reg rs1).toNat + (s.reg rs2).toNat)) ∧
    Computes (.sub rd rs1 rs2) rd (fun s => BitVec.ofInt 32 ((s.reg rs1).toNat - (s.reg rs2).toNat))

/-- R147, R148. -/
def Obligations.SetLessThanResults : Prop :=
  Encodes 0xFE00707F#32 0x00002033#32 (fun w => .slt (rdF w) (rs1F w) (rs2F w)) ∧
  Encodes 0xFE00707F#32 0x00003033#32 (fun w => .sltu (rdF w) (rs1F w) (rs2F w)) ∧
  ∀ rd rs1 rs2 : RegIdx,
    Computes (.slt rd rs1 rs2) rd (fun s => if (s.reg rs1).toInt < (s.reg rs2).toInt then 1#32 else 0#32) ∧
    Computes (.sltu rd rs1 rs2) rd (fun s => if (s.reg rs1).toNat < (s.reg rs2).toNat then 1#32 else 0#32)

/-- R149, R153, R154. -/
def Obligations.BitwiseResults : Prop :=
  Encodes 0xFE00707F#32 0x00004033#32 (fun w => .xor (rdF w) (rs1F w) (rs2F w)) ∧
  Encodes 0xFE00707F#32 0x00006033#32 (fun w => .or (rdF w) (rs1F w) (rs2F w)) ∧
  Encodes 0xFE00707F#32 0x00007033#32 (fun w => .and (rdF w) (rs1F w) (rs2F w)) ∧
  ∀ rd rs1 rs2 : RegIdx,
    Computes (.xor rd rs1 rs2) rd (fun s => s.reg rs1 ^^^ s.reg rs2) ∧
    Computes (.or rd rs1 rs2) rd (fun s => s.reg rs1 ||| s.reg rs2) ∧
    Computes (.and rd rs1 rs2) rd (fun s => s.reg rs1 &&& s.reg rs2)

/-- R150, R151, R152: the amount is the low 5 bits of x[rs2]; a right shift divides by a power of two, rounding down. -/
def Obligations.ShiftResults : Prop :=
  Encodes 0xFE00707F#32 0x00001033#32 (fun w => .sll (rdF w) (rs1F w) (rs2F w)) ∧
  Encodes 0xFE00707F#32 0x00005033#32 (fun w => .srl (rdF w) (rs1F w) (rs2F w)) ∧
  Encodes 0xFE00707F#32 0x40005033#32 (fun w => .sra (rdF w) (rs1F w) (rs2F w)) ∧
  ∀ rd rs1 rs2 : RegIdx,
    Computes (.sll rd rs1 rs2) rd (fun s => BitVec.ofNat 32 ((s.reg rs1).toNat * 2 ^ ((s.reg rs2).toNat % 32))) ∧
    Computes (.srl rd rs1 rs2) rd (fun s => BitVec.ofNat 32 ((s.reg rs1).toNat / 2 ^ ((s.reg rs2).toNat % 32))) ∧
    Computes (.sra rd rs1 rs2) rd (fun s => BitVec.ofInt 32 ((s.reg rs1).toInt / 2 ^ ((s.reg rs2).toNat % 32)))

/-- R155. -/
def Obligations.AddiResult : Prop :=
  Encodes 0x0000707F#32 0x00000013#32 (fun w => .addi (rdF w) (rs1F w) (immIF w)) ∧
  ∀ (rd rs1 : RegIdx) (imm : Word),
    Computes (.addi rd rs1 imm) rd (fun s => BitVec.ofNat 32 ((s.reg rs1).toNat + imm.toNat))

/-- R156, R157: the immediate is sign-extended, then compared signed or unsigned. -/
def Obligations.SetLessThanImmediateResults : Prop :=
  Encodes 0x0000707F#32 0x00002013#32 (fun w => .slti (rdF w) (rs1F w) (immIF w)) ∧
  Encodes 0x0000707F#32 0x00003013#32 (fun w => .sltiu (rdF w) (rs1F w) (immIF w)) ∧
  ∀ (rd rs1 : RegIdx) (imm : Word),
    Computes (.slti rd rs1 imm) rd (fun s => if (s.reg rs1).toInt < imm.toInt then 1#32 else 0#32) ∧
    Computes (.sltiu rd rs1 imm) rd (fun s => if (s.reg rs1).toNat < imm.toNat then 1#32 else 0#32)

/-- R158, R159, R160. -/
def Obligations.BitwiseImmediateResults : Prop :=
  Encodes 0x0000707F#32 0x00004013#32 (fun w => .xori (rdF w) (rs1F w) (immIF w)) ∧
  Encodes 0x0000707F#32 0x00006013#32 (fun w => .ori (rdF w) (rs1F w) (immIF w)) ∧
  Encodes 0x0000707F#32 0x00007013#32 (fun w => .andi (rdF w) (rs1F w) (immIF w)) ∧
  ∀ (rd rs1 : RegIdx) (imm : Word),
    Computes (.xori rd rs1 imm) rd (fun s => s.reg rs1 ^^^ imm) ∧
    Computes (.ori rd rs1 imm) rd (fun s => s.reg rs1 ||| imm) ∧
    Computes (.andi rd rs1 imm) rd (fun s => s.reg rs1 &&& imm)

/-- R161, R162, R163; an SLLI word with a funct7 that is not 0 is malformed (R161). -/
def Obligations.ShiftImmediateResults : Prop :=
  Encodes 0xFE00707F#32 0x00001013#32 (fun w => .slli (rdF w) (rs1F w) (rs2F w)) ∧
  Encodes 0xFE00707F#32 0x00005013#32 (fun w => .srli (rdF w) (rs1F w) (rs2F w)) ∧
  Encodes 0xFE00707F#32 0x40005013#32 (fun w => .srai (rdF w) (rs1F w) (rs2F w)) ∧
  (∀ w : Word, w &&& 0x0000707F#32 = 0x00001013#32 → w.extractLsb' 25 7 ≠ 0#7 → decode w = .error .malformed) ∧
  ∀ rd rs1 shamt : BitVec 5,
    Computes (.slli rd rs1 shamt) rd (fun s => BitVec.ofNat 32 ((s.reg rs1).toNat * 2 ^ shamt.toNat)) ∧
    Computes (.srli rd rs1 shamt) rd (fun s => BitVec.ofNat 32 ((s.reg rs1).toNat / 2 ^ shamt.toNat)) ∧
    Computes (.srai rd rs1 shamt) rd (fun s => BitVec.ofInt 32 ((s.reg rs1).toInt / 2 ^ shamt.toNat))

/-- R220, R221: AUIPC adds to the address of the AUIPC itself. -/
def Obligations.UpperImmediateResults : Prop :=
  Encodes 0x0000007F#32 0x00000037#32 (fun w => .lui (rdF w) (immUF w)) ∧
  Encodes 0x0000007F#32 0x00000017#32 (fun w => .auipc (rdF w) (immUF w)) ∧
  ∀ (rd : RegIdx) (imm : Word),
    Computes (.lui rd imm) rd (fun _ => imm) ∧
    Computes (.auipc rd imm) rd (fun s => BitVec.ofNat 32 (s.pc.toNat + imm.toNat))

/-- R263, and from R144: each of the 21 ALU and upper-immediate instructions raises no error, and neither reads nor writes
memory or the CSR bank. -/
def Obligations.AluTouchesNoMemoryAndNoCsr : Prop :=
  ∀ i : Instr, i.mnemonic ∈ errorFreeNames → ∀ (s : State) (m : Memory) (b : CsrBank),
    ∃ t, exec i s = .next t ∧ t.mem = s.mem ∧ t.csrs = s.csrs ∧
      exec i { s with mem := m, csrs := b } = .next { t with mem := m, csrs := b }

/-! ### Loads and stores -/

/-- R184, R187. -/
def Obligations.LoadByteRule : Prop :=
  Encodes 0x0000707F#32 0x00000003#32 (fun w => .lb (rdF w) (rs1F w) (immIF w)) ∧
  Encodes 0x0000707F#32 0x00004003#32 (fun w => .lbu (rdF w) (rs1F w) (immIF w)) ∧
  ∀ (rd rs1 : RegIdx) (imm : Word) (s : State),
    Loads (.lb rd rs1 imm) s rd (s.reg rs1 + imm) .byte 1 ((s.byte (s.reg rs1 + imm).toNat).signExtend 32) ∧
    Loads (.lbu rd rs1 imm) s rd (s.reg rs1 + imm) .byte 1 (BitVec.ofNat 32 (s.byte (s.reg rs1 + imm).toNat).toNat)

/-- R185, R188. -/
def Obligations.LoadHalfRule : Prop :=
  Encodes 0x0000707F#32 0x00001003#32 (fun w => .lh (rdF w) (rs1F w) (immIF w)) ∧
  Encodes 0x0000707F#32 0x00005003#32 (fun w => .lhu (rdF w) (rs1F w) (immIF w)) ∧
  ∀ (rd rs1 : RegIdx) (imm : Word) (s : State),
    Loads (.lh rd rs1 imm) s rd (s.reg rs1 + imm) .half 2
      ((s.byte ((s.reg rs1 + imm).toNat + 1) ++ s.byte (s.reg rs1 + imm).toNat).signExtend 32) ∧
    Loads (.lhu rd rs1 imm) s rd (s.reg rs1 + imm) .half 2
      (BitVec.ofNat 32 ((s.byte (s.reg rs1 + imm).toNat).toNat + 256 * (s.byte ((s.reg rs1 + imm).toNat + 1)).toNat))

/-- R186. -/
def Obligations.LoadWordRule : Prop :=
  Encodes 0x0000707F#32 0x00002003#32 (fun w => .lw (rdF w) (rs1F w) (immIF w)) ∧
  ∀ (rd rs1 : RegIdx) (imm : Word) (s : State),
    Loads (.lw rd rs1 imm) s rd (s.reg rs1 + imm) .word 4
      (s.byte ((s.reg rs1 + imm).toNat + 3) ++ s.byte ((s.reg rs1 + imm).toNat + 2) ++
        s.byte ((s.reg rs1 + imm).toNat + 1) ++ s.byte (s.reg rs1 + imm).toNat)

/-- R189. -/
def Obligations.StoreByteRule : Prop :=
  Encodes 0x0000707F#32 0x00000023#32 (fun w => .sb (rs1F w) (rs2F w) (immSF w)) ∧
  ∀ (rs1 rs2 : RegIdx) (imm : Word) (s : State), Stores (.sb rs1 rs2 imm) s (s.reg rs1 + imm) (s.reg rs2) .byte 1

/-- R190. -/
def Obligations.StoreHalfRule : Prop :=
  Encodes 0x0000707F#32 0x00001023#32 (fun w => .sh (rs1F w) (rs2F w) (immSF w)) ∧
  ∀ (rs1 rs2 : RegIdx) (imm : Word) (s : State), Stores (.sh rs1 rs2 imm) s (s.reg rs1 + imm) (s.reg rs2) .half 2

/-- R191. -/
def Obligations.StoreWordRule : Prop :=
  Encodes 0x0000707F#32 0x00002023#32 (fun w => .sw (rs1F w) (rs2F w) (immSF w)) ∧
  ∀ (rs1 rs2 : RegIdx) (imm : Word) (s : State), Stores (.sw rs1 rs2 imm) s (s.reg rs1 + imm) (s.reg rs2) .word 4

/-- R56: a write followed by a read of the same width returns the low 8n bits written. -/
def Obligations.StoreThenLoadRoundTrip : Prop :=
  ∀ (m : Memory) (size a : Nat) (v : Word) (width : Width), Memory.wf size m → a + bytesOf width ≤ size →
    loadValue (storeValue m a v width) a width .unsigned = BitVec.ofNat 32 (v.toNat % 2 ^ (8 * bytesOf width))

/-- From R67 and R294: a store to the address of the next instruction changes the word fetched next. -/
def Obligations.StoreToNextInstructionIsFetched : Prop :=
  ∀ (s t : State) (rs1 rs2 : RegIdx) (imm : Word), s.Inv → s.reg rs1 + imm = s.pc + 4#32 →
    exec (.sw rs1 rs2 imm) s = .next t → t.fetch = some (s.reg rs2)

/-- From R52 and its decision D4: the bounds sum does not wrap: a Half or Word access at 0xFFFFFFFF is out of bounds for every MEM_SIZE. -/
def Obligations.AccessAtTopNeverWraps : Prop :=
  ∀ (rd rs1 rs2 : RegIdx) (imm : Word) (s : State),
    s.cfg.memSize ≤ 2 ^ 32 → s.cfg.misalignedData = .permit → s.reg rs1 + imm = 0xFFFFFFFF#32 →
    ∀ c ∈ [(Instr.lh rd rs1 imm, Width.half), (.lhu rd rs1 imm, .half), (.lw rd rs1 imm, .word),
        (.sh rs1 rs2 imm, .half), (.sw rs1 rs2 imm, .word)],
      exec c.1 s = .fault (.execMemOutOfBounds s.pc (encode c.1) 0xFFFFFFFF#32 c.2)

/-- Only SB, SH and SW change memory, and no instruction but a load or a store reads it once fetched (R144, R180, R181). -/
def Obligations.OnlyLoadsAndStoresTouchMemory : Prop :=
  (∀ (i : Instr) (s t : State), exec i s = .next t → i.mnemonic ∉ storeNames → t.mem = s.mem) ∧
  (∀ (i : Instr) (s : State) (m : Memory), i.mnemonic ∉ loadNames ++ storeNames →
    exec i { s with mem := m } = onNext (fun t => { t with mem := m }) (exec i s))

/-! ### Jumps -/

/-- R202, its pseudocode. -/
def Obligations.JalRule : Prop :=
  Encodes 0x0000007F#32 0x0000006F#32 (fun w => .jal (rdF w) (immJF w)) ∧
  ∀ (rd : RegIdx) (imm : Word) (s : State),
    ((s.pc + imm).toNat % 4 = 0 → Yields (.jal rd imm) s rd (s.pc + 4#32) (s.pc + imm)) ∧
    ((s.pc + imm).toNat % 4 ≠ 0 →
      exec (.jal rd imm) s = .fault (.execMisalignedJumpTarget s.pc (encode (.jal rd imm)) (s.pc + imm)))

/-- JAL raises exactly when immJ mod 4 = 2, where pc is a multiple of 4 (the sentence R202 marks as derived). -/
def Obligations.JalRaisesByItsImmediate : Prop :=
  ∀ (rd : RegIdx) (imm : Word) (s : State), s.pc.toNat % 4 = 0 → (Instr.jal rd imm).wellFormed = true →
    ((∃ f, exec (.jal rd imm) s = .fault f) ↔ imm.toNat % 4 = 2)

/-- R203: bit 0 of the sum is cleared; bit 1 set raises. The target comes from the old x[rs1], rd = rs1 included (R200). -/
def Obligations.JalrRule : Prop :=
  Encodes 0x0000707F#32 0x00000067#32 (fun w => .jalr (rdF w) (rs1F w) (immIF w)) ∧
  ∀ (rd rs1 : RegIdx) (imm : Word) (s : State),
    ((s.reg rs1 + imm).getLsbD 1 = false →
      Yields (.jalr rd rs1 imm) s rd (s.pc + 4#32) (BitVec.ofNat 32 ((s.reg rs1 + imm).toNat / 2 * 2))) ∧
    ((s.reg rs1 + imm).getLsbD 1 = true →
      exec (.jalr rd rs1 imm) s = .fault (.execMisalignedJumpTarget s.pc (encode (.jalr rd rs1 imm))
        (BitVec.ofNat 32 ((s.reg rs1 + imm).toNat / 2 * 2))))

/-- From R201: a target beyond MEM_SIZE is not checked by the jump: where the target is a multiple of 4, the jump succeeds
and the next step's fetch fails. -/
def Obligations.JumpBeyondMemoryFailsAtFetch : Prop :=
  (∀ (rd : RegIdx) (imm : Word) (s : State),
    (s.pc + imm).toNat % 4 = 0 → ¬ InBounds s (s.pc + imm).toNat 4 →
      ∃ t, exec (.jal rd imm) s = .next t ∧ t.pc = s.pc + imm ∧ step t = .fault (.fetchOutOfBounds (s.pc + imm))) ∧
  (∀ (rd rs1 : RegIdx) (imm : Word) (s : State),
    (s.reg rs1 + imm).getLsbD 1 = false → ¬ InBounds s (s.jalrTarget rs1 imm).toNat 4 →
      ∃ t, exec (.jalr rd rs1 imm) s = .next t ∧ t.pc = s.jalrTarget rs1 imm ∧
        step t = .fault (.fetchOutOfBounds (s.jalrTarget rs1 imm)))

/-- R124: every instruction but JAL and JALR ends with pc + 4, modulo 2^32. -/
def Obligations.OnlyJumpsRedirect : Prop :=
  ∀ (i : Instr) (s t : State), exec i s = .next t → i.mnemonic ∉ jumpNames →
    t.pc = BitVec.ofNat 32 (s.pc.toNat + 4)

/-! ### CSR bank -/

/-- R234, R237. -/
def Obligations.CsrWriteRule : Prop :=
  Encodes 0x0000707F#32 0x00001073#32 (fun w => .csrrw (rdF w) (rs1F w) (csrF w)) ∧
  Encodes 0x0000707F#32 0x00005073#32 (fun w => .csrrwi (rdF w) (rs1F w) (csrF w)) ∧
  ∀ (rd : RegIdx) (csr : CsrAddr) (s : State),
    (∀ rs1 : RegIdx, Updates (.csrrw rd rs1 csr) s rd csr (fun _ => s.reg rs1)) ∧
    (∀ zimm : BitVec 5, Updates (.csrrwi rd zimm csr) s rd csr (fun _ => BitVec.ofNat 32 zimm.toNat))

/-- R235, R238. -/
def Obligations.CsrSetRule : Prop :=
  Encodes 0x0000707F#32 0x00002073#32 (fun w => .csrrs (rdF w) (rs1F w) (csrF w)) ∧
  Encodes 0x0000707F#32 0x00006073#32 (fun w => .csrrsi (rdF w) (rs1F w) (csrF w)) ∧
  ∀ (rd : RegIdx) (csr : CsrAddr) (s : State),
    (∀ rs1 : RegIdx, Updates (.csrrs rd rs1 csr) s rd csr (fun t => t ||| s.reg rs1)) ∧
    (∀ zimm : BitVec 5, Updates (.csrrsi rd zimm csr) s rd csr (fun t => t ||| BitVec.ofNat 32 zimm.toNat))

/-- R236, R239. -/
def Obligations.CsrClearRule : Prop :=
  Encodes 0x0000707F#32 0x00003073#32 (fun w => .csrrc (rdF w) (rs1F w) (csrF w)) ∧
  Encodes 0x0000707F#32 0x00007073#32 (fun w => .csrrci (rdF w) (rs1F w) (csrF w)) ∧
  ∀ (rd : RegIdx) (csr : CsrAddr) (s : State),
    (∀ rs1 : RegIdx, Updates (.csrrc rd rs1 csr) s rd csr (fun t => t &&& ~~~ s.reg rs1)) ∧
    (∀ zimm : BitVec 5, Updates (.csrrci rd zimm csr) s rd csr (fun t => t &&& ~~~ BitVec.ofNat 32 zimm.toNat))

/-- From R233, which marks it as derived: with a zero mask the write leaves the same state as no write: only rd and pc
change. -/
def Obligations.ZeroMaskLeavesCsrBank : Prop :=
  ∀ (s : State) (rd rs1 : RegIdx) (csr : CsrAddr) (old : Word), s.Inv → s.csrRead csr = some old →
    (s.reg rs1 = 0#32 → exec (.csrrs rd rs1 csr) s = .next (s.setReg rd old).advance ∧
      exec (.csrrc rd rs1 csr) s = .next (s.setReg rd old).advance) ∧
    exec (.csrrsi rd 0#5 csr) s = .next (s.setReg rd old).advance ∧
    exec (.csrrci rd 0#5 csr) s = .next (s.setReg rd old).advance

/-- R36: only the six CSR instructions read or write the CSR bank: any other instruction answers the same whatever the
bank holds, and leaves it as it is. -/
def Obligations.OnlyCsrInstructionsTouchCsrBank : Prop :=
  ∀ (i : Instr) (s : State) (b : CsrBank), i.mnemonic ∉ csrNames →
    exec i { s with csrs := b } = onNext (fun t => { t with csrs := b }) (exec i s) ∧
    (∀ t, exec i s = .next t → t.csrs = s.csrs)

/-! ### Pseudo-instructions -/

/-- From R110: every expansion is words that decode to it. -/
def Obligations.PseudoExpansionsDecode : Prop :=
  ∀ p : Pseudo, p.wellFormed = true → ∀ i ∈ p.expand, i.wellFormed = true ∧ decode (encode i) = .ok i

/-- From R110, what its register expansions amount to: `li` loads any 32-bit constant, `la` a pc-relative address (log entry
19), and the others copy, complement, negate or test a register. -/
def Obligations.PseudoRegisterResults : Prop :=
  Amounts .nop 0#5 (fun _ => 0#32) ∧
  (∀ (rd : RegIdx) (imm : Word), Amounts (.li rd imm) rd (fun _ => imm)) ∧
  (∀ (rd : RegIdx) (offset : Word), Amounts (.la rd offset) rd (fun s => s.pc + offset)) ∧
  ∀ rd rs : RegIdx,
    Amounts (.mv rd rs) rd (fun s => s.reg rs) ∧
    Amounts (.not rd rs) rd (fun s => ~~~ s.reg rs) ∧
    Amounts (.neg rd rs) rd (fun s => BitVec.ofInt 32 (-(s.reg rs).toInt)) ∧
    Amounts (.seqz rd rs) rd (fun s => if s.reg rs = 0#32 then 1#32 else 0#32) ∧
    Amounts (.snez rd rs) rd (fun s => if s.reg rs = 0#32 then 0#32 else 1#32) ∧
    Amounts (.sltz rd rs) rd (fun s => if (s.reg rs).toInt < 0 then 1#32 else 0#32) ∧
    Amounts (.sgtz rd rs) rd (fun s => if 0 < (s.reg rs).toInt then 1#32 else 0#32)

/-- From R110, R202, R203 and R221: its jumps reach a target that is a multiple of 4, and link in x1 where they link; `tail`
leaves in x6 the AUIPC's pc plus hi. That the offset of `call` and `tail` counts from their AUIPC is the model's reading (log
entry 19). An offset of `j` or `jal` outside the J-immediate range, which no word encodes, is covered as log entry 16 says. -/
def Obligations.PseudoJumpsReachTheirTargets : Prop :=
  (∀ (s : State) (offset : Word), (s.pc + offset).toNat % 4 = 0 →
    Achieves (.j offset) s 0#5 0#32 (s.pc + offset) ∧
    Achieves (.jal offset) s 1#5 (s.pc + 4#32) (s.pc + offset) ∧
    Achieves (.call offset) s 1#5 (s.pc + 8#32) (s.pc + offset) ∧
    Achieves (.tail offset) s 6#5 (s.pc + hiPart offset) (s.pc + offset)) ∧
  (∀ (s : State) (rs : RegIdx), (s.reg rs).toNat % 4 = 0 →
    Achieves (.jr rs) s 0#5 0#32 (s.reg rs) ∧ Achieves (.jalr rs) s 1#5 (s.pc + 4#32) (s.reg rs)) ∧
  (∀ s : State, (s.reg 1#5).toNat % 4 = 0 → Achieves .ret s 0#5 0#32 (s.reg 1#5))

/-- From R110: `csrr` and the counter reads of 0xC00, 0xC01 and 0xC02 give the CSR where it is registered, leave the bank as
it is, and raise UnsupportedCsr where it is not. -/
def Obligations.PseudoCsrReads : Prop :=
  ∀ (s : State) (rd : RegIdx) (csr : CsrAddr) (p : Pseudo), s.Inv →
    (p = .csrr rd csr ∨ (p, csr) ∈ [(.rdcycle rd, 0xC00#12), (.rdtime rd, 0xC01#12), (.rdinstret rd, 0xC02#12)]) →
      (∀ v, s.csrRead csr = some v → Achieves p s rd v (s.pc + 4#32)) ∧
      (s.csrRead csr = none → execAll p.expand s = .fault (.execUnsupportedCsr s.pc (encode (.csrrs rd 0#5 csr)) csr))

/-- From R110: `csrw`, `csrs`, `csrc` and their immediate forms change the CSR alone, where it is registered, and no register. -/
def Obligations.PseudoCsrWrites : Prop :=
  ∀ (s : State) (csr : CsrAddr) (rs : RegIdx) (zimm : BitVec 5) (old : Word), s.Inv → s.csrRead csr = some old →
    ∀ c ∈ [(Pseudo.csrw csr rs, s.reg rs), (.csrs csr rs, old ||| s.reg rs), (.csrc csr rs, old &&& ~~~ s.reg rs),
        (.csrwi csr zimm, BitVec.ofNat 32 zimm.toNat), (.csrsi csr zimm, old ||| BitVec.ofNat 32 zimm.toNat),
        (.csrci csr zimm, old &&& ~~~ BitVec.ofNat 32 zimm.toNat)],
      ∃ t, execAll c.1.expand s = .next t ∧ (∀ r, t.reg r = s.reg r) ∧ t.pc = s.pc + 4#32 ∧ MemSame s t ∧ t.cfg = s.cfg ∧
        ∀ a, t.csrRead a = if a = csr then some c.2 else s.csrRead a

/-- From R110: the words the branch pseudo-instructions, `fence`, `ecall` and `ebreak` expand to, those R97 excludes, fail with
UnknownOpcode when stepped, and nothing changes. -/
def Obligations.ExcludedWordsFailWhenStepped : Prop :=
  ∀ (s : State) (w : Word), s.fetch = some w → Excluded w →
    step s = .fault (.decodeNotImplemented s.pc w) ∧ s.after = s
end

