-- ==== Sys2Proof/Laws/Decode.lean ====
section
/-! SUPPORT. Laws of the encoding: what each field reader finds in each format (spec/30_encoding.md R83 to R95), bytes of a word, and the ranges of the immediates. -/

namespace Sys2Proof

/-! ### Bytes of a word -/

@[simp] theorem byte0_wordOfBytes (b0 b1 b2 b3 : Byte) : byte0 (wordOfBytes b0 b1 b2 b3) = b0 := by
  unfold byte0 wordOfBytes
  simp (disch := omega) only [BitVec.extractLsb'_append_eq_of_add_le]
  simp

@[simp] theorem byte1_wordOfBytes (b0 b1 b2 b3 : Byte) : byte1 (wordOfBytes b0 b1 b2 b3) = b1 := by
  unfold byte1 wordOfBytes
  simp (disch := omega) only [BitVec.extractLsb'_append_eq_of_le, BitVec.extractLsb'_append_eq_of_add_le]
  simp

@[simp] theorem byte2_wordOfBytes (b0 b1 b2 b3 : Byte) : byte2 (wordOfBytes b0 b1 b2 b3) = b2 := by
  unfold byte2 wordOfBytes
  simp (disch := omega) only [BitVec.extractLsb'_append_eq_of_le, BitVec.extractLsb'_append_eq_of_add_le]
  simp

@[simp] theorem byte3_wordOfBytes (b0 b1 b2 b3 : Byte) : byte3 (wordOfBytes b0 b1 b2 b3) = b3 := by
  unfold byte3 wordOfBytes
  simp (disch := omega) only [BitVec.extractLsb'_append_eq_of_le]
  simp

/-- The four bytes of a word, put together again, are the word. -/
@[simp] theorem wordOfBytes_bytes (w : Word) : wordOfBytes (byte0 w) (byte1 w) (byte2 w) (byte3 w) = w := by
  unfold byte0 byte1 byte2 byte3 wordOfBytes
  rw [BitVec.extractLsb'_append_extractLsb'_eq_extractLsb' (by rfl), BitVec.extractLsb'_append_extractLsb'_eq_extractLsb' (by rfl),
    BitVec.extractLsb'_append_extractLsb'_eq_extractLsb' (by rfl)]
  simp

/-- Reading the bytes of a word decodes the word. -/
@[simp] theorem decodeBytes_bytes (w : Word) : decodeBytes (byte0 w) (byte1 w) (byte2 w) (byte3 w) = decode w := by
  rw [decodeBytes, wordOfBytes_bytes]

/-! ### rFormat -/

section
variable (f7 op : BitVec 7) (rs2 rs1 rd : BitVec 5) (f3 : BitVec 3)

@[simp] theorem opcodeOf_rFormat : opcodeOf (rFormat f7 rs2 rs1 f3 rd op) = op := by
  unfold opcodeOf rFormat
  simp (disch := omega) only [BitVec.extractLsb'_append_eq_of_add_le]
  simp

@[simp] theorem rdOf_rFormat : rdOf (rFormat f7 rs2 rs1 f3 rd op) = rd := by
  unfold rdOf rFormat
  simp (disch := omega) only [BitVec.extractLsb'_append_eq_of_le, BitVec.extractLsb'_append_eq_of_add_le]
  simp

@[simp] theorem funct3Of_rFormat : funct3Of (rFormat f7 rs2 rs1 f3 rd op) = f3 := by
  unfold funct3Of rFormat
  simp (disch := omega) only [BitVec.extractLsb'_append_eq_of_le, BitVec.extractLsb'_append_eq_of_add_le]
  simp

@[simp] theorem rs1Of_rFormat : rs1Of (rFormat f7 rs2 rs1 f3 rd op) = rs1 := by
  unfold rs1Of rFormat
  simp (disch := omega) only [BitVec.extractLsb'_append_eq_of_le, BitVec.extractLsb'_append_eq_of_add_le]
  simp

@[simp] theorem rs2Of_rFormat : rs2Of (rFormat f7 rs2 rs1 f3 rd op) = rs2 := by
  unfold rs2Of rFormat
  simp (disch := omega) only [BitVec.extractLsb'_append_eq_of_le, BitVec.extractLsb'_append_eq_of_add_le]
  simp

@[simp] theorem shamtOf_rFormat : shamtOf (rFormat f7 rs2 rs1 f3 rd op) = rs2 := by
  unfold shamtOf rFormat
  simp (disch := omega) only [BitVec.extractLsb'_append_eq_of_le, BitVec.extractLsb'_append_eq_of_add_le]
  simp

@[simp] theorem funct7Of_rFormat : funct7Of (rFormat f7 rs2 rs1 f3 rd op) = f7 := by
  unfold funct7Of rFormat
  simp (disch := omega) only [BitVec.extractLsb'_append_eq_of_le]
  simp

end

/-! ### iFormat -/

section
variable (imm : BitVec 12) (rs1 rd : BitVec 5) (f3 : BitVec 3) (op : BitVec 7)

@[simp] theorem opcodeOf_iFormat : opcodeOf (iFormat imm rs1 f3 rd op) = op := by
  unfold opcodeOf iFormat
  simp (disch := omega) only [BitVec.extractLsb'_append_eq_of_add_le]
  simp

@[simp] theorem rdOf_iFormat : rdOf (iFormat imm rs1 f3 rd op) = rd := by
  unfold rdOf iFormat
  simp (disch := omega) only [BitVec.extractLsb'_append_eq_of_le, BitVec.extractLsb'_append_eq_of_add_le]
  simp

@[simp] theorem funct3Of_iFormat : funct3Of (iFormat imm rs1 f3 rd op) = f3 := by
  unfold funct3Of iFormat
  simp (disch := omega) only [BitVec.extractLsb'_append_eq_of_le, BitVec.extractLsb'_append_eq_of_add_le]
  simp

@[simp] theorem rs1Of_iFormat : rs1Of (iFormat imm rs1 f3 rd op) = rs1 := by
  unfold rs1Of iFormat
  simp (disch := omega) only [BitVec.extractLsb'_append_eq_of_le, BitVec.extractLsb'_append_eq_of_add_le]
  simp

@[simp] theorem zimmOf_iFormat : zimmOf (iFormat imm rs1 f3 rd op) = rs1 := by
  unfold zimmOf iFormat
  simp (disch := omega) only [BitVec.extractLsb'_append_eq_of_le, BitVec.extractLsb'_append_eq_of_add_le]
  simp

@[simp] theorem csrOf_iFormat : csrOf (iFormat imm rs1 f3 rd op) = imm := by
  unfold csrOf iFormat
  simp (disch := omega) only [BitVec.extractLsb'_append_eq_of_le]
  simp

@[simp] theorem immIOf_iFormat : immIOf (iFormat imm rs1 f3 rd op) = sext imm := by
  unfold immIOf iFormat
  simp (disch := omega) only [BitVec.extractLsb'_append_eq_of_le]
  simp

end

/-! ### sFormat -/

section
variable (imm : BitVec 12) (rs2 rs1 : BitVec 5) (f3 : BitVec 3) (op : BitVec 7)

@[simp] theorem opcodeOf_sFormat : opcodeOf (sFormat imm rs2 rs1 f3 op) = op := by
  unfold opcodeOf sFormat
  simp (disch := omega) only [BitVec.extractLsb'_append_eq_of_add_le]
  simp

@[simp] theorem funct3Of_sFormat : funct3Of (sFormat imm rs2 rs1 f3 op) = f3 := by
  unfold funct3Of sFormat
  simp (disch := omega) only [BitVec.extractLsb'_append_eq_of_le, BitVec.extractLsb'_append_eq_of_add_le]
  simp

@[simp] theorem rs1Of_sFormat : rs1Of (sFormat imm rs2 rs1 f3 op) = rs1 := by
  unfold rs1Of sFormat
  simp (disch := omega) only [BitVec.extractLsb'_append_eq_of_le, BitVec.extractLsb'_append_eq_of_add_le]
  simp

@[simp] theorem rs2Of_sFormat : rs2Of (sFormat imm rs2 rs1 f3 op) = rs2 := by
  unfold rs2Of sFormat
  simp (disch := omega) only [BitVec.extractLsb'_append_eq_of_le, BitVec.extractLsb'_append_eq_of_add_le]
  simp

@[simp] theorem immSOf_sFormat : immSOf (sFormat imm rs2 rs1 f3 op) = sext imm := by
  unfold immSOf sFormat
  simp (disch := omega) only [BitVec.extractLsb'_append_eq_of_le, BitVec.extractLsb'_append_eq_of_add_le]
  simp only [Nat.reduceSub, BitVec.extractLsb'_eq_self]
  rw [BitVec.extractLsb'_append_extractLsb'_eq_extractLsb' (by rfl), BitVec.extractLsb'_eq_self]

end

/-! ### uFormat -/

section
variable (imm : BitVec 20) (rd : BitVec 5) (op : BitVec 7)

@[simp] theorem opcodeOf_uFormat : opcodeOf (uFormat imm rd op) = op := by
  unfold opcodeOf uFormat
  simp (disch := omega) only [BitVec.extractLsb'_append_eq_of_add_le]
  simp

@[simp] theorem rdOf_uFormat : rdOf (uFormat imm rd op) = rd := by
  unfold rdOf uFormat
  simp (disch := omega) only [BitVec.extractLsb'_append_eq_of_le, BitVec.extractLsb'_append_eq_of_add_le]
  simp

@[simp] theorem immUOf_uFormat : immUOf (uFormat imm rd op) = imm ++ 0#12 := by
  unfold immUOf uFormat
  simp (disch := omega) only [BitVec.extractLsb'_append_eq_of_le]
  simp

end

/-! ### jFormat -/

section
variable (imm : BitVec 21) (rd : BitVec 5) (op : BitVec 7)

@[simp] theorem opcodeOf_jFormat : opcodeOf (jFormat imm rd op) = op := by
  unfold opcodeOf jFormat
  simp (disch := omega) only [BitVec.extractLsb'_append_eq_of_add_le]
  simp

@[simp] theorem rdOf_jFormat : rdOf (jFormat imm rd op) = rd := by
  unfold rdOf jFormat
  simp (disch := omega) only [BitVec.extractLsb'_append_eq_of_le, BitVec.extractLsb'_append_eq_of_add_le]
  simp

/-- The immediate of a J-format word is its 21 bits, bit 0 cleared. -/
@[simp] theorem immJOf_jFormat : immJOf (jFormat imm rd op) = sext (imm.extractLsb' 1 20 ++ 0#1) := by
  unfold immJOf jFormat
  simp (disch := omega) only [BitVec.extractLsb'_append_eq_of_le, BitVec.extractLsb'_append_eq_of_add_le]
  simp only [Nat.reduceSub, BitVec.extractLsb'_eq_self]
  rw [BitVec.extractLsb'_append_extractLsb'_eq_extractLsb' (by rfl), BitVec.extractLsb'_append_extractLsb'_eq_extractLsb' (by rfl),
    BitVec.extractLsb'_append_extractLsb'_eq_extractLsb' (by rfl)]

end

/-! ### A word is its fields, in each format -/

theorem rFormat_fields (w : Word) : rFormat (funct7Of w) (rs2Of w) (rs1Of w) (funct3Of w) (rdOf w) (opcodeOf w) = w := by
  unfold rFormat funct7Of rs2Of rs1Of funct3Of rdOf opcodeOf
  rw [BitVec.extractLsb'_append_extractLsb'_eq_extractLsb' (by rfl),
    BitVec.extractLsb'_append_extractLsb'_eq_extractLsb' (by rfl),
    BitVec.extractLsb'_append_extractLsb'_eq_extractLsb' (by rfl),
    BitVec.extractLsb'_append_extractLsb'_eq_extractLsb' (by rfl),
    BitVec.extractLsb'_append_extractLsb'_eq_extractLsb' (by rfl)]
  simp

theorem iFormat_fields (w : Word) : iFormat (csrOf w) (rs1Of w) (funct3Of w) (rdOf w) (opcodeOf w) = w := by
  unfold iFormat csrOf rs1Of funct3Of rdOf opcodeOf
  rw [BitVec.extractLsb'_append_extractLsb'_eq_extractLsb' (by rfl),
    BitVec.extractLsb'_append_extractLsb'_eq_extractLsb' (by rfl),
    BitVec.extractLsb'_append_extractLsb'_eq_extractLsb' (by rfl),
    BitVec.extractLsb'_append_extractLsb'_eq_extractLsb' (by rfl)]
  simp

@[simp] theorem low12_sext (v : BitVec 12) : low12 (sext v) = v := by
  unfold low12 sext
  apply BitVec.eq_of_getLsbD_eq
  intro i hi
  rw [BitVec.getLsbD_extractLsb', BitVec.getLsbD_signExtend]
  simp [hi]
  omega

@[simp] theorem low12_immIOf (w : Word) : low12 (immIOf w) = csrOf w := by rw [immIOf, low12_sext, csrOf]

theorem sFormat_fields (w : Word) : sFormat (low12 (immSOf w)) (rs2Of w) (rs1Of w) (funct3Of w) (opcodeOf w) = w := by
  rw [immSOf, low12_sext]
  unfold sFormat rs2Of rs1Of funct3Of opcodeOf
  rw [BitVec.extractLsb'_append_eq_of_le (w := 5) (by omega), BitVec.extractLsb'_append_eq_of_add_le (w := 5) (by omega)]
  simp only [Nat.reduceSub, BitVec.extractLsb'_eq_self]
  rw [BitVec.extractLsb'_append_extractLsb'_eq_extractLsb' (by rfl),
    BitVec.extractLsb'_append_extractLsb'_eq_extractLsb' (by rfl),
    BitVec.extractLsb'_append_extractLsb'_eq_extractLsb' (by rfl),
    BitVec.extractLsb'_append_extractLsb'_eq_extractLsb' (by rfl),
    BitVec.extractLsb'_append_extractLsb'_eq_extractLsb' (by rfl)]
  simp

theorem uFormat_fields (w : Word) : uFormat ((immUOf w).extractLsb' 12 20) (rdOf w) (opcodeOf w) = w := by
  unfold uFormat immUOf rdOf opcodeOf
  rw [BitVec.extractLsb'_append_eq_of_le (w := 12) (by omega)]
  simp only [Nat.reduceSub, BitVec.extractLsb'_eq_self]
  rw [BitVec.extractLsb'_append_extractLsb'_eq_extractLsb' (by rfl),
    BitVec.extractLsb'_append_extractLsb'_eq_extractLsb' (by rfl)]
  simp

@[simp] theorem low21_sext (v : BitVec 21) : (sext v).extractLsb' 0 21 = v := by
  unfold sext
  apply BitVec.eq_of_getLsbD_eq
  intro i hi
  rw [BitVec.getLsbD_extractLsb', BitVec.getLsbD_signExtend]
  simp [hi]
  omega

theorem jFormat_fields (w : Word) : jFormat ((immJOf w).extractLsb' 0 21) (rdOf w) (opcodeOf w) = w := by
  rw [immJOf, low21_sext]
  unfold jFormat rdOf opcodeOf
  simp (disch := omega) only [BitVec.extractLsb'_append_eq_of_le, BitVec.extractLsb'_append_eq_of_add_le]
  simp only [Nat.reduceSub, BitVec.extractLsb'_eq_self]
  rw [BitVec.extractLsb'_append_extractLsb'_eq_extractLsb' (by rfl),
    BitVec.extractLsb'_append_extractLsb'_eq_extractLsb' (by rfl),
    BitVec.extractLsb'_append_extractLsb'_eq_extractLsb' (by rfl),
    BitVec.extractLsb'_append_extractLsb'_eq_extractLsb' (by rfl),
    BitVec.extractLsb'_append_extractLsb'_eq_extractLsb' (by rfl)]
  simp

/-! ### The opcode table's masks: which fields of a format they keep -/

theorem rFormat_and (f7 op : BitVec 7) (rs2 rs1 rd : BitVec 5) (f3 : BitVec 3) :
    rFormat f7 rs2 rs1 f3 rd op &&& 0xFE00707F#32 = rFormat f7 0#5 0#5 f3 0#5 op := by
  have h : 0xFE00707F#32 = rFormat (BitVec.allOnes 7) 0#5 0#5 (BitVec.allOnes 3) 0#5 (BitVec.allOnes 7) := by decide
  rw [h]
  unfold rFormat
  rw [BitVec.and_append, BitVec.and_append, BitVec.and_append, BitVec.and_append, BitVec.and_append]
  simp only [BitVec.and_allOnes, BitVec.and_zero]

theorem iFormat_and (imm : BitVec 12) (op : BitVec 7) (rs1 rd : BitVec 5) (f3 : BitVec 3) :
    iFormat imm rs1 f3 rd op &&& 0x0000707F#32 = iFormat 0#12 0#5 f3 0#5 op := by
  have h : 0x0000707F#32 = iFormat 0#12 0#5 (BitVec.allOnes 3) 0#5 (BitVec.allOnes 7) := by decide
  rw [h]
  unfold iFormat
  rw [BitVec.and_append, BitVec.and_append, BitVec.and_append, BitVec.and_append]
  simp only [BitVec.and_allOnes, BitVec.and_zero]

theorem sFormat_and (imm : BitVec 12) (op : BitVec 7) (rs2 rs1 : BitVec 5) (f3 : BitVec 3) :
    sFormat imm rs2 rs1 f3 op &&& 0x0000707F#32 = sFormat 0#12 0#5 0#5 f3 op := by
  have h : 0x0000707F#32 = sFormat 0#12 0#5 0#5 (BitVec.allOnes 3) (BitVec.allOnes 7) := by decide
  rw [h]
  unfold sFormat
  simp only [show BitVec.extractLsb' 5 7 0#12 = 0#7 from rfl, show BitVec.extractLsb' 0 5 0#12 = 0#5 from rfl]
  rw [BitVec.and_append, BitVec.and_append, BitVec.and_append, BitVec.and_append, BitVec.and_append]
  simp only [BitVec.and_allOnes, BitVec.and_zero]

theorem uFormat_and (imm : BitVec 20) (op : BitVec 7) (rd : BitVec 5) :
    uFormat imm rd op &&& 0x0000007F#32 = uFormat 0#20 0#5 op := by
  have h : 0x0000007F#32 = uFormat 0#20 0#5 (BitVec.allOnes 7) := by decide
  rw [h]
  unfold uFormat
  rw [BitVec.and_append, BitVec.and_append]
  simp only [BitVec.and_allOnes, BitVec.and_zero]

theorem jFormat_and (imm : BitVec 21) (op : BitVec 7) (rd : BitVec 5) :
    jFormat imm rd op &&& 0x0000007F#32 = jFormat 0#21 0#5 op := by
  have h : 0x0000007F#32 = jFormat 0#21 0#5 (BitVec.allOnes 7) := by decide
  rw [h]
  unfold jFormat
  simp only [show BitVec.extractLsb' 20 1 0#21 = 0#1 from rfl, show BitVec.extractLsb' 1 10 0#21 = 0#10 from rfl,
    show BitVec.extractLsb' 11 1 0#21 = 0#1 from rfl, show BitVec.extractLsb' 12 8 0#21 = 0#8 from rfl]
  rw [BitVec.and_append, BitVec.and_append, BitVec.and_append, BitVec.and_append, BitVec.and_append]
  simp only [BitVec.and_allOnes, BitVec.and_zero]

/-- A mask that keeps the opcode keeps it. -/
theorem opcodeOf_and {w m : Word} (h : opcodeOf m = BitVec.allOnes 7) : opcodeOf (w &&& m) = opcodeOf w := by
  have ha : opcodeOf (w &&& m) = opcodeOf w &&& opcodeOf m := BitVec.extractLsb'_and
  rw [ha, h, BitVec.and_allOnes]

/-- A mask that keeps funct3 keeps it. -/
theorem funct3Of_and {w m : Word} (h : funct3Of m = BitVec.allOnes 3) : funct3Of (w &&& m) = funct3Of w := by
  have ha : funct3Of (w &&& m) = funct3Of w &&& funct3Of m := BitVec.extractLsb'_and
  rw [ha, h, BitVec.and_allOnes]

/-- A mask that keeps funct7 keeps it. -/
theorem funct7Of_and {w m : Word} (h : funct7Of m = BitVec.allOnes 7) : funct7Of (w &&& m) = funct7Of w := by
  have ha : funct7Of (w &&& m) = funct7Of w &&& funct7Of m := BitVec.extractLsb'_and
  rw [ha, h, BitVec.and_allOnes]

/-! ### Ranges of the immediates -/

/-- A 12-bit field sign-extended lies in the range of R89. -/
theorem fitsImm12_sext (v : BitVec 12) : fitsImm12 (sext v) := by
  have h : (sext v).toInt = v.toInt := BitVec.toInt_signExtend_of_le (by omega)
  rw [fitsImm12, h, BitVec.toInt_eq_toNat_cond]
  have := v.isLt
  constructor <;> split <;> omega

/-- A Word in the range of R89 is its low 12 bits sign-extended. -/
theorem sext_low12 {imm : Word} (h : fitsImm12 imm) : sext (low12 imm) = imm := by
  have hl : (low12 imm).toNat = imm.toNat % 4096 := by simp [low12, BitVec.extractLsb'_toNat]
  have hs : (sext (low12 imm)).toInt = (low12 imm).toInt := BitVec.toInt_signExtend_of_le (by omega)
  apply BitVec.eq_of_toInt_eq
  rw [hs]
  obtain ⟨h1, h2⟩ := h
  rw [BitVec.toInt_eq_toNat_cond] at h1 h2 ⊢
  rw [BitVec.toInt_eq_toNat_cond, hl]
  have := imm.isLt
  (repeat' split) <;> (repeat' split at h1) <;> omega

theorem toNat_append_zero12 (v : BitVec 20) : (v ++ 0#12 : Word).toNat = v.toNat * 4096 := by
  have hp : (BitVec.toNat (w := 20 + 12) (v ++ 0#12)) = v.toNat * 4096 := by
    rw [BitVec.toNat_append]
    simp [Nat.shiftLeft_eq]
  exact hp

/-- A U-immediate has its low 12 bits zero (R92). -/
theorem fitsImmU_append (v : BitVec 20) : fitsImmU (v ++ 0#12) := by
  rw [fitsImmU, toNat_append_zero12]
  omega

/-- A Word whose low 12 bits are zero is its high 20 bits and 12 zeros. -/
theorem append_high20 {imm : Word} (h : fitsImmU imm) : (imm.extractLsb' 12 20 ++ 0#12 : Word) = imm := by
  apply BitVec.eq_of_toNat_eq
  rw [toNat_append_zero12, BitVec.extractLsb'_toNat, Nat.shiftRight_eq_div_pow]
  have h : imm.toNat % 4096 = 0 := h
  have := imm.isLt
  omega

theorem toNat_append_zero1 (v : BitVec 20) : (v ++ 0#1 : BitVec 21).toNat = v.toNat * 2 := by
  have hp : (BitVec.toNat (w := 20 + 1) (v ++ 0#1)) = v.toNat * 2 := by
    rw [BitVec.toNat_append]
    simp [Nat.shiftLeft_eq]
  exact hp

/-- A J-immediate lies in the range of R93 and is even. -/
theorem fitsImmJ_sext (v : BitVec 20) : fitsImmJ (sext (v ++ 0#1 : BitVec 21)) := by
  have hp := toNat_append_zero1 v
  have hv := v.isLt
  have hs : (sext (v ++ 0#1 : BitVec 21)).toInt = (v ++ 0#1 : BitVec 21).toInt := BitVec.toInt_signExtend_of_le (by omega)
  have hr := BitVec.toInt_eq_toNat_cond (sext (v ++ 0#1 : BitVec 21))
  rw [fitsImmJ, hs]
  rw [hs] at hr
  rw [BitVec.toInt_eq_toNat_cond, hp] at hr ⊢
  have := (sext (v ++ 0#1 : BitVec 21)).isLt
  refine ⟨?_, ?_, ?_⟩ <;> (repeat' split at hr) <;> (repeat' split) <;> omega

/-- A Word in the range of R93 is its bits 20:1 and a zero, sign-extended. -/
theorem sext_low21 {imm : Word} (h : fitsImmJ imm) : sext (imm.extractLsb' 1 20 ++ 0#1 : BitVec 21) = imm := by
  obtain ⟨h1, h2, h3⟩ := h
  have hl : (imm.extractLsb' 1 20 ++ 0#1 : BitVec 21).toNat = imm.toNat % 2097152 := by
    rw [toNat_append_zero1, BitVec.extractLsb'_toNat]
    simp only [Nat.shiftRight_eq_div_pow]
    omega
  have hs : (sext (imm.extractLsb' 1 20 ++ 0#1 : BitVec 21)).toInt
      = (imm.extractLsb' 1 20 ++ 0#1 : BitVec 21).toInt := BitVec.toInt_signExtend_of_le (by omega)
  apply BitVec.eq_of_toInt_eq
  rw [hs]
  rw [BitVec.toInt_eq_toNat_cond] at h1 h2 ⊢
  rw [BitVec.toInt_eq_toNat_cond, hl]
  have := imm.isLt
  (repeat' split) <;> (repeat' split at h1) <;> omega

end Sys2Proof
end

