-- ==== Sys2Proof/Laws/Sparse.lean ====
section
/-! SUPPORT. Laws of the sparse map: read after write, and that a write keeps the canonical form. -/

namespace Sys2Proof

@[simp] theorem Sparse.get_nil {β : Type} {d : β} (a : Nat) : Sparse.get d ([] : List (Nat × β)) a = d := rfl

/-- Below every listed address the map holds the default. -/
theorem Sparse.get_eq_default {β : Type} {d : β} {m : List (Nat × β)} {a : Nat} (h : ∀ e ∈ m, a < e.1) : Sparse.get d m a = d := by
  induction m with
  | nil => rfl
  | cons e rest ih =>
    obtain ⟨k, v⟩ := e
    have hk : a ≠ k := Nat.ne_of_lt (h (k, v) (by simp))
    rw [Sparse.get, if_neg hk]
    exact ih fun e he => h e (by simp [he])

variable {β : Type} [DecidableEq β] {d : β}

theorem Sparse.get_cons (a b : Nat) (v : β) (rest : List (Nat × β)) (h : ∀ e ∈ rest, a < e.1) :
    Sparse.get d (Sparse.cons d a v rest) b = if b = a then v else Sparse.get d rest b := by
  unfold Sparse.cons
  split
  · next hv =>
    split
    · next hb => rw [hb, hv, Sparse.get_eq_default h]
    · rfl
  · rfl

/-- Reading after writing: the written address holds the value, every other address what it held. The one hypothesis is
that the addresses rise. -/
theorem Sparse.get_put {m : List (Nat × β)} (hm : m.Pairwise fun x y => x.1 < y.1) (a b : Nat) (v : β) :
    Sparse.get d (Sparse.put d m a v) b = if b = a then v else Sparse.get d m b := by
  induction m with
  | nil => exact Sparse.get_cons a b v [] (by simp)
  | cons e rest ih =>
    obtain ⟨k, u⟩ := e
    obtain ⟨hk, hrest⟩ := List.pairwise_cons.1 hm
    unfold Sparse.put
    split
    · next hak =>
      refine Sparse.get_cons a b v _ fun e he => ?_
      rcases List.mem_cons.1 he with rfl | he
      · exact hak
      · exact Nat.lt_trans hak (hk e he)
    · split
      · next hak =>
        rw [Sparse.get_cons a b v rest (fun e he => hak ▸ hk e he), Sparse.get]
        by_cases hb : b = a
        · simp [hb]
        · rw [if_neg hb, if_neg hb, if_neg (hak ▸ hb)]
      · next hlt hak =>
        rw [Sparse.get, Sparse.get, ih hrest]
        by_cases hb : b = k
        · rw [if_pos hb, if_pos hb, if_neg (fun h => hak (h.symm.trans hb))]
        · rw [if_neg hb, if_neg hb]

theorem Sparse.mem_cons {a : Nat} {v : β} {rest : List (Nat × β)} {e : Nat × β} (h : e ∈ Sparse.cons d a v rest) :
    (e = (a, v) ∧ v ≠ d) ∨ e ∈ rest := by
  unfold Sparse.cons at h
  split at h
  · exact .inr h
  · next hv => exact (List.mem_cons.1 h).imp (fun he => ⟨he, hv⟩) id

/-- Every entry after a write is an old one or the written one. -/
theorem Sparse.mem_put {m : List (Nat × β)} {a : Nat} {v : β} {e : Nat × β} (h : e ∈ Sparse.put d m a v) :
    (e = (a, v) ∧ v ≠ d) ∨ e ∈ m := by
  induction m with
  | nil => exact Sparse.mem_cons h
  | cons x rest ih =>
    obtain ⟨k, u⟩ := x
    unfold Sparse.put at h
    split at h
    · exact Sparse.mem_cons h
    · split at h
      · exact (Sparse.mem_cons h).imp_right fun he => List.mem_cons.2 (.inr he)
      · rcases List.mem_cons.1 h with rfl | h
        · exact .inr (by simp)
        · exact (ih h).imp_right fun he => List.mem_cons.2 (.inr he)

theorem Sparse.pairwise_cons {a : Nat} {v : β} {rest : List (Nat × β)} (hr : rest.Pairwise fun x y => x.1 < y.1)
    (h : ∀ e ∈ rest, a < e.1) : (Sparse.cons d a v rest).Pairwise fun x y => x.1 < y.1 := by
  unfold Sparse.cons
  split
  · exact hr
  · exact List.pairwise_cons.2 ⟨h, hr⟩

theorem Sparse.pairwise_put {m : List (Nat × β)} (hm : m.Pairwise fun x y => x.1 < y.1) (a : Nat) (v : β) :
    (Sparse.put d m a v).Pairwise fun x y => x.1 < y.1 := by
  induction m with
  | nil => exact Sparse.pairwise_cons .nil (by simp)
  | cons x rest ih =>
    obtain ⟨k, u⟩ := x
    obtain ⟨hk, hrest⟩ := List.pairwise_cons.1 hm
    unfold Sparse.put
    split
    · next hak =>
      refine Sparse.pairwise_cons hm fun e he => ?_
      rcases List.mem_cons.1 he with rfl | he
      · exact hak
      · exact Nat.lt_trans hak (hk e he)
    · split
      · next hak => exact Sparse.pairwise_cons hrest fun e he => hak ▸ hk e he
      · next hlt hak =>
        refine List.pairwise_cons.2 ⟨fun e he => ?_, ih hrest⟩
        rcases Sparse.mem_put he with ⟨rfl, -⟩ | he
        · show k < a
          omega
        · exact hk e he

/-- A write keeps the canonical form. -/
theorem Sparse.wf_put {m : List (Nat × β)} (hm : Sparse.wf d m) (a : Nat) (v : β) : Sparse.wf d (Sparse.put d m a v) := by
  refine ⟨Sparse.pairwise_put hm.1 a v, fun e he => ?_⟩
  rcases Sparse.mem_put he with ⟨rfl, hv⟩ | he
  · exact hv
  · exact hm.2 e he

omit [DecidableEq β] in
/-- Canonical maps that read alike are equal. -/
theorem Sparse.ext {m n : List (Nat × β)} (hm : Sparse.wf d m) (hn : Sparse.wf d n)
    (h : ∀ a, Sparse.get d m a = Sparse.get d n a) : m = n := by
  induction m generalizing n with
  | nil =>
    cases n with
    | nil => rfl
    | cons e rest =>
      obtain ⟨k, v⟩ := e
      have := h k
      rw [Sparse.get_nil, Sparse.get, if_pos rfl] at this
      exact absurd this.symm (hn.2 (k, v) (by simp))
  | cons x rest ih =>
    obtain ⟨k, u⟩ := x
    obtain ⟨hk, hrest⟩ := List.pairwise_cons.1 hm.1
    cases n with
    | nil =>
      have := h k
      rw [Sparse.get_nil, Sparse.get, if_pos rfl] at this
      exact absurd this (hm.2 (k, u) (by simp))
    | cons y rest' =>
      obtain ⟨l, v⟩ := y
      obtain ⟨hl, hrest'⟩ := List.pairwise_cons.1 hn.1
      have hkl : k = l := by
        rcases Nat.lt_trichotomy k l with hlt | heq | hgt
        · have := h k
          rw [Sparse.get, if_pos rfl, Sparse.get_eq_default (m := (l, v) :: rest')] at this
          · exact absurd this (hm.2 (k, u) (by simp))
          · intro e he
            rcases List.mem_cons.1 he with rfl | he
            · exact hlt
            · exact Nat.lt_trans hlt (hl e he)
        · exact heq
        · have := h l
          rw [Sparse.get_eq_default (m := (k, u) :: rest), Sparse.get, if_pos rfl] at this
          · exact absurd this.symm (hn.2 (l, v) (by simp))
          · intro e he
            rcases List.mem_cons.1 he with rfl | he
            · exact hgt
            · exact Nat.lt_trans hgt (hk e he)
      subst hkl
      have huv : u = v := by simpa [Sparse.get] using h k
      subst huv
      congr 1
      refine ih ⟨hrest, fun e he => hm.2 e (by simp [he])⟩ ⟨hrest', fun e he => hn.2 e (by simp [he])⟩ fun a => ?_
      by_cases ha : a = k
      · rw [ha, Sparse.get_eq_default hk, Sparse.get_eq_default hl]
      · have := h a
        rwa [Sparse.get, if_neg ha, Sparse.get, if_neg ha] at this

/-- Writing back what an address holds changes nothing. -/
theorem Sparse.put_get {m : List (Nat × β)} (hm : Sparse.wf d m) (a : Nat) : Sparse.put d m a (Sparse.get d m a) = m := by
  refine Sparse.ext (Sparse.wf_put hm a _) hm fun b => ?_
  rw [Sparse.get_put hm.1]
  split
  · next h => rw [h]
  · rfl

end Sys2Proof
end

