-- ==== Sys2Proof/Laws/Memory.lean ====
section
/-! SUPPORT. Laws of memory: read after write for every width (spec/20_memory.md R54, R56), and that every memory operation keeps the canonical form. -/

namespace Sys2Proof

variable {m : Memory} {size : Nat}

theorem Memory.wf_nil (size : Nat) : Memory.wf size [] := by simp [Memory.wf, Sparse.wf]

/-! ### One byte -/

theorem Memory.byte_setByte (hm : Memory.wf size m) (a b : Nat) (v : Byte) :
    (m.setByte a v).byte b = if b = a then v else m.byte b :=
  Sparse.get_put hm.1.1 a b v

theorem Memory.wf_setByte (hm : Memory.wf size m) {a : Nat} (ha : a < size) (v : Byte) : Memory.wf size (m.setByte a v) := by
  refine ⟨Sparse.wf_put hm.1 a v, fun e he => ?_⟩
  rcases Sparse.mem_put he with ⟨rfl, -⟩ | he
  · exact ha
  · exact hm.2 e he

/-- A larger memory keeps the canonical form of a smaller one. -/
theorem Memory.wf_mono (hm : Memory.wf size m) {size' : Nat} (h : size ≤ size') : Memory.wf size' m :=
  ⟨hm.1, fun e he => Nat.lt_of_lt_of_le (hm.2 e he) h⟩

/-- Canonical memories that read alike are equal. -/
theorem Memory.ext {n : Memory} {size' : Nat} (hm : Memory.wf size m) (hn : Memory.wf size' n)
    (h : ∀ a, m.byte a = n.byte a) : m = n :=
  Sparse.ext hm.1 hn.1 h

/-! ### Wider stores -/

theorem Memory.byte_setLow8 (hm : Memory.wf size m) (a b : Nat) (v : Word) :
    (m.setLow8 a v).byte b = if b = a then byte0 v else m.byte b :=
  Memory.byte_setByte hm a b _

theorem Memory.wf_setLow8 (hm : Memory.wf size m) {a : Nat} (ha : a + 1 ≤ size) (v : Word) :
    Memory.wf size (m.setLow8 a v) :=
  Memory.wf_setByte hm ha _

theorem Memory.byte_setLow16 (hm : Memory.wf size m) {a : Nat} (ha : a + 2 ≤ size) (b : Nat) (v : Word) :
    (m.setLow16 a v).byte b = if b = a then byte0 v else if b = a + 1 then byte1 v else m.byte b := by
  have h0 := Memory.wf_setByte hm (a := a) (by omega) (byte0 v)
  rw [Memory.setLow16, Memory.byte_setByte h0, Memory.byte_setByte hm]
  (repeat' split) <;> first | rfl | omega

theorem Memory.wf_setLow16 (hm : Memory.wf size m) {a : Nat} (ha : a + 2 ≤ size) (v : Word) :
    Memory.wf size (m.setLow16 a v) :=
  Memory.wf_setByte (Memory.wf_setByte hm (by omega) _) (by omega) _

theorem Memory.byte_setWord (hm : Memory.wf size m) {a : Nat} (ha : a + 4 ≤ size) (b : Nat) (v : Word) :
    (m.setWord a v).byte b =
      if b = a then byte0 v else if b = a + 1 then byte1 v else if b = a + 2 then byte2 v
      else if b = a + 3 then byte3 v else m.byte b := by
  have h0 := Memory.wf_setByte hm (a := a) (by omega) (byte0 v)
  have h1 := Memory.wf_setByte h0 (a := a + 1) (by omega) (byte1 v)
  have h2 := Memory.wf_setByte h1 (a := a + 2) (by omega) (byte2 v)
  rw [Memory.setWord, Memory.byte_setByte h2, Memory.byte_setByte h1, Memory.byte_setByte h0, Memory.byte_setByte hm]
  (repeat' split) <;> first | rfl | omega

theorem Memory.wf_setWord (hm : Memory.wf size m) {a : Nat} (ha : a + 4 ≤ size) (v : Word) :
    Memory.wf size (m.setWord a v) :=
  Memory.wf_setByte (Memory.wf_setByte (Memory.wf_setByte (Memory.wf_setByte hm (by omega) _) (by omega) _) (by omega) _)
    (by omega) _

/-! ### Wider loads after stores -/

/-- The word read where a word was stored is the stored one. -/
theorem Memory.word_setWord (hm : Memory.wf size m) {a : Nat} (ha : a + 4 ≤ size) (v : Word) :
    (m.setWord a v).word a = v := by
  simp [Memory.word, Memory.byte_setWord hm ha]

/-- The half read where a half was stored is the low half of the stored word. -/
theorem Memory.half_setLow16 (hm : Memory.wf size m) {a : Nat} (ha : a + 2 ≤ size) (v : Word) :
    (m.setLow16 a v).half a = v.extractLsb' 0 16 := by
  simp only [Memory.half, Memory.byte_setLow16 hm ha]
  simp only [Nat.succ_ne_self, if_true, if_false, byte0, byte1]
  rw [BitVec.extractLsb'_append_extractLsb'_eq_extractLsb' (by rfl)]

end Sys2Proof
end

