-- ==== Sys2Proof/Laws/State.lean ====
section
/-! SUPPORT. One lemma per field per update of the state. -/

namespace Sys2Proof.Machine

variable (s : State) (r : RegIdx) (v : Word)

/-! ### setPc and advance -/

@[simp] theorem State.setPc_pc : (s.setPc v).pc = v := rfl
@[simp] theorem State.setPc_cfg : (s.setPc v).cfg = s.cfg := rfl
@[simp] theorem State.setPc_regs : (s.setPc v).regs = s.regs := rfl
@[simp] theorem State.setPc_csrs : (s.setPc v).csrs = s.csrs := rfl
@[simp] theorem State.setPc_mem : (s.setPc v).mem = s.mem := rfl
@[simp] theorem State.setPc_reg : (s.setPc v).reg r = s.reg r := rfl
@[simp] theorem State.setPc_csrRead (a : CsrAddr) : (s.setPc v).csrRead a = s.csrRead a := rfl
@[simp] theorem State.setPc_byte (a : Nat) : (s.setPc v).byte a = s.byte a := rfl

@[simp] theorem State.advance_pc : s.advance.pc = s.pc + 4#32 := rfl
@[simp] theorem State.advance_cfg : s.advance.cfg = s.cfg := rfl
@[simp] theorem State.advance_regs : s.advance.regs = s.regs := rfl
@[simp] theorem State.advance_csrs : s.advance.csrs = s.csrs := rfl
@[simp] theorem State.advance_mem : s.advance.mem = s.mem := rfl
@[simp] theorem State.advance_reg : s.advance.reg r = s.reg r := rfl
@[simp] theorem State.advance_csrRead (a : CsrAddr) : s.advance.csrRead a = s.csrRead a := rfl
@[simp] theorem State.advance_byte (a : Nat) : s.advance.byte a = s.byte a := rfl

/-! ### setReg -/

@[simp] theorem State.setReg_zero : s.setReg 0#5 v = s := rfl
@[simp] theorem State.reg_zero : s.reg 0#5 = 0#32 := rfl

@[simp] theorem State.setReg_pc : (s.setReg r v).pc = s.pc := by unfold State.setReg; split <;> rfl
@[simp] theorem State.setReg_cfg : (s.setReg r v).cfg = s.cfg := by unfold State.setReg; split <;> rfl
@[simp] theorem State.setReg_csrs : (s.setReg r v).csrs = s.csrs := by unfold State.setReg; split <;> rfl
@[simp] theorem State.setReg_mem : (s.setReg r v).mem = s.mem := by unfold State.setReg; split <;> rfl

@[simp] theorem State.setReg_csrRead (a : CsrAddr) : (s.setReg r v).csrRead a = s.csrRead a := by
  unfold State.csrRead; simp
@[simp] theorem State.setReg_byte (a : Nat) : (s.setReg r v).byte a = s.byte a := by
  unfold State.byte; simp

/-- Reading a register after a write to `r`: x0 still reads 0, `r` holds the value, the others are unchanged (R23, R24). -/
theorem State.reg_setReg (q : RegIdx) : (s.setReg r v).reg q = if q = r ∧ q ≠ 0#5 then v else s.reg q := by
  by_cases hq : q = 0#5
  · subst hq; simp
  by_cases hr : r = 0#5
  · subst hr; simp [hq]
  have hset : s.setReg r v = { s with regs := s.regs.set (r.toNat - 1) v (regSlot_lt hr) } := by
    simp [State.setReg, hr]
  have hqn : q.toNat ≠ 0 := fun e => hq (BitVec.eq_of_toNat_eq (by simpa using e))
  have hrn : r.toNat ≠ 0 := fun e => hr (BitVec.eq_of_toNat_eq (by simpa using e))
  rw [hset]
  simp only [State.reg, hq, dite_false, Vector.getElem_set]
  by_cases hqr : q = r
  · subst hqr; simp [hq]
  · have : r.toNat - 1 ≠ q.toNat - 1 := fun e => hqr (BitVec.eq_of_toNat_eq (by omega))
    simp [this, hqr]

/-! ### csrWrite -/

variable (a : CsrAddr)

@[simp] theorem State.csrWrite_pc : (s.csrWrite a v).pc = s.pc := rfl
@[simp] theorem State.csrWrite_cfg : (s.csrWrite a v).cfg = s.cfg := rfl
@[simp] theorem State.csrWrite_regs : (s.csrWrite a v).regs = s.regs := rfl
@[simp] theorem State.csrWrite_mem : (s.csrWrite a v).mem = s.mem := rfl
@[simp] theorem State.csrWrite_reg : (s.csrWrite a v).reg r = s.reg r := rfl
@[simp] theorem State.csrWrite_byte (b : Nat) : (s.csrWrite a v).byte b = s.byte b := rfl

end Sys2Proof.Machine
end

