-- ==== Sys2Proof/Laws/Ops.lean ====
section
/-! SUPPORT. What each shared operation can do, said once: its answer in each case, and its frame. -/

namespace Sys2Proof.Machine

/-! ### Memory accesses -/

section
variable {s : State} {word ea v : Word} {width : Width} {m : Memory} {size : Nat}

theorem storeValue_wf (hm : Memory.wf size m) {a : Nat} (ha : a + bytesOf width ≤ size) :
    Memory.wf size (storeValue m a v width) := by
  cases width
  · exact Memory.wf_setLow8 hm ha v
  · exact Memory.wf_setLow16 hm ha v
  · exact Memory.wf_setWord hm ha v

/-- A store leaves every byte outside the stored ones as it was (R54). -/
theorem storeValue_byte_outside (hm : Memory.wf size m) {a b : Nat} (ha : a + bytesOf width ≤ size)
    (hb : b < a ∨ a + bytesOf width ≤ b) : (storeValue m a v width).byte b = m.byte b := by
  cases width <;> simp only [bytesOf] at ha hb <;> simp only [storeValue]
  · rw [Memory.byte_setLow8 hm, if_neg (by omega)]
  · rw [Memory.byte_setLow16 hm ha, if_neg (by omega), if_neg (by omega)]
  · rw [Memory.byte_setWord hm ha, if_neg (by omega), if_neg (by omega), if_neg (by omega), if_neg (by omega)]

/-- An access raises nothing exactly when it is aligned where alignment is asked for, and in bounds (R53, R54). -/
theorem State.accessFault_eq_none_iff : s.accessFault word ea width = none ↔
    (s.cfg.misalignedData = .fault → ea.toNat % bytesOf width = 0) ∧ ea.toNat + bytesOf width ≤ s.cfg.memSize := by
  unfold State.accessFault misaligned outOfBounds
  cases hm : s.cfg.misalignedData <;>
    by_cases h1 : ea.toNat % bytesOf width = 0 <;> by_cases h2 : ea.toNat + bytesOf width ≤ s.cfg.memSize <;>
    simp [h1, h2]

/-- If an access raises, it reports pc and the instruction word, and the error is one of the two of R53. -/
theorem State.accessFault_cases {f : Fault} (h : s.accessFault word ea width = some f) :
    (f = .execMisalignedAccess s.pc word ea width ∧ s.cfg.misalignedData = .fault ∧ ea.toNat % bytesOf width ≠ 0) ∨
    (f = .execMemOutOfBounds s.pc word ea width ∧ s.cfg.memSize < ea.toNat + bytesOf width ∧
      (s.cfg.misalignedData = .fault → ea.toNat % bytesOf width = 0)) := by
  unfold State.accessFault misaligned outOfBounds at h
  split at h
  · next hm => exact .inl ⟨(Option.some.inj h).symm, by simpa using hm⟩
  · next hm =>
    split at h
    · next ho => exact .inr ⟨(Option.some.inj h).symm, by simpa using ho, by simpa using hm⟩
    · exact absurd h (by simp)

variable {rd : RegIdx} {x : Extension}

theorem State.load_eq_next (h : s.accessFault word ea width = none) :
    s.load word rd ea width x = .next (s.setReg rd (loadValue s.mem ea.toNat width x)).advance := by
  simp [State.load, h, State.writeResult]

/-- If a load answers a next state, its access raised nothing and the state is this one. -/
theorem State.load_next {t : State} (h : s.load word rd ea width x = .next t) :
    s.accessFault word ea width = none ∧ t = (s.setReg rd (loadValue s.mem ea.toNat width x)).advance := by
  unfold State.load State.writeResult at h
  split at h
  · simp at h
  · next hf => exact ⟨hf, (Host.Outcome.next.inj h).symm⟩

/-- If a load faults, it is its access's error. -/
theorem State.load_fault {f : Fault} (h : s.load word rd ea width x = .fault f) : s.accessFault word ea width = some f := by
  unfold State.load State.writeResult at h
  split at h
  · next hf => rw [hf, Host.Outcome.fault.inj h]
  · simp at h

theorem State.store_eq_next (h : s.accessFault word ea width = none) :
    s.store word ea v width = .next ({ s with mem := storeValue s.mem ea.toNat v width } : State).advance := by
  simp [State.store, h]

/-- If a store answers a next state, its access raised nothing and the state is this one. -/
theorem State.store_next {t : State} (h : s.store word ea v width = .next t) :
    s.accessFault word ea width = none ∧ t = ({ s with mem := storeValue s.mem ea.toNat v width } : State).advance := by
  unfold State.store at h
  split at h
  · simp at h
  · next hf => exact ⟨hf, (Host.Outcome.next.inj h).symm⟩

/-- If a store faults, it is its access's error. -/
theorem State.store_fault {f : Fault} (h : s.store word ea v width = .fault f) : s.accessFault word ea width = some f := by
  unfold State.store at h
  split at h
  · next hf => rw [hf, Host.Outcome.fault.inj h]
  · simp at h

end

/-! ### Jumps -/

section
variable {s : State} {word target : Word} {rd : RegIdx}

/-- A target's low two bits are clear exactly when it is a multiple of 4. -/
theorem low2_eq_zero_iff (v : Word) : v.extractLsb' 0 2 = 0#2 ↔ v.toNat % 4 = 0 := by
  rw [← BitVec.toNat_inj, BitVec.extractLsb'_toNat]
  simp

theorem State.jump_eq_next (h : target.toNat % 4 = 0) :
    s.jump word rd target = .next ((s.setReg rd (s.pc + 4#32)).setPc target) := by
  have := (low2_eq_zero_iff target).2 h
  simp [State.jump, this]

theorem State.jump_eq_fault (h : target.toNat % 4 ≠ 0) :
    s.jump word rd target = .fault (.execMisalignedJumpTarget s.pc word target) := by
  have := mt (low2_eq_zero_iff target).1 h
  simp [State.jump, this]

/-- A jump redirects to a multiple of 4 or raises (R201). -/
theorem State.jump_cases (s : State) (word : Word) (rd : RegIdx) (target : Word) :
    (target.toNat % 4 = 0 ∧ s.jump word rd target = .next ((s.setReg rd (s.pc + 4#32)).setPc target)) ∨
    (target.toNat % 4 ≠ 0 ∧ s.jump word rd target = .fault (.execMisalignedJumpTarget s.pc word target)) := by
  by_cases h : target.toNat % 4 = 0
  · exact .inl ⟨h, State.jump_eq_next h⟩
  · exact .inr ⟨h, State.jump_eq_fault h⟩

end

/-! ### CSR bank -/

section
variable {s : State} {word : Word} {rd : RegIdx} {csr : CsrAddr} {new : Word → Word}

/-- CsrRead raises exactly at an unregistered address (R33). -/
theorem State.csrRead_eq_none_iff : s.csrRead csr = none ↔ csrRegistered s.cfg csr = false := by
  unfold State.csrRead
  split <;> simp_all

/-- Reading a CSR after a write: the written one holds the value, the others what they held (R34, R35). -/
theorem State.csrRead_csrWrite (hb : CsrBank.wf s.cfg s.csrs) (a b : CsrAddr) (v : Word) :
    (s.csrWrite a v).csrRead b = if b = a ∧ csrRegistered s.cfg a = true then some v else s.csrRead b := by
  unfold State.csrRead State.csrWrite
  rw [Sparse.get_put hb.1.1]
  by_cases h : b = a
  · subst h
    cases hr : csrRegistered s.cfg b <;> simp
  · have hn : b.toNat ≠ a.toNat := fun e => h (BitVec.eq_of_toNat_eq e)
    simp [h, hn]

theorem csrWrite_wf {c : Config} {bank : CsrBank} (hb : CsrBank.wf c bank) {a : CsrAddr} (ha : csrRegistered c a = true)
    (v : Word) : CsrBank.wf c (Sparse.put CsrBank.unlisted bank a.toNat v) := by
  refine ⟨Sparse.wf_put hb.1 _ v, fun e he => ?_⟩
  rcases Sparse.mem_put he with ⟨rfl, -⟩ | he
  · exact ⟨a.isLt, by simpa using ha⟩
  · exact hb.2 e he

theorem State.csrUpdate_eq_next {t : Word} (h : s.csrRead csr = some t) :
    s.csrUpdate word rd csr new = .next ((s.csrWrite csr (new t)).setReg rd t).advance := by
  simp [State.csrUpdate, h, State.writeResult]

theorem State.csrUpdate_eq_fault (h : s.csrRead csr = none) :
    s.csrUpdate word rd csr new = .fault (.execUnsupportedCsr s.pc word csr) := by
  simp [State.csrUpdate, h]

/-- If a CSR update answers a next state, the CSR held some `t` and the state is this one. -/
theorem State.csrUpdate_next {u : State} (h : s.csrUpdate word rd csr new = .next u) :
    ∃ t, s.csrRead csr = some t ∧ u = ((s.csrWrite csr (new t)).setReg rd t).advance := by
  unfold State.csrUpdate State.writeResult at h
  split at h
  · simp at h
  · next t ht => exact ⟨t, ht, (Host.Outcome.next.inj h).symm⟩

/-- If a CSR update faults, the address is unregistered. -/
theorem State.csrUpdate_fault {f : Fault} (h : s.csrUpdate word rd csr new = .fault f) :
    s.csrRead csr = none ∧ f = .execUnsupportedCsr s.pc word csr := by
  unfold State.csrUpdate State.writeResult at h
  split at h
  · next hn => exact ⟨hn, (Host.Outcome.fault.inj h).symm⟩
  · simp at h

end

/-! ### Invariant -/

section
variable {s : State}

theorem State.inv_setReg (h : s.Inv) (r : RegIdx) (v : Word) : (s.setReg r v).Inv := by
  constructor <;> simp only [State.setReg_cfg, State.setReg_pc, State.setReg_mem, State.setReg_csrs]
  exacts [h.size, h.pc, h.memory, h.csrs]

theorem State.inv_setPc (h : s.Inv) {target : Word} (ht : target.toNat % 4 = 0) : (s.setPc target).Inv :=
  ⟨h.size, ht, h.memory, h.csrs⟩

theorem State.inv_advance (h : s.Inv) : s.advance.Inv := by
  refine State.inv_setPc h ?_
  have := h.pc
  rw [BitVec.toNat_add]
  simp only [BitVec.toNat_ofNat]
  omega

theorem State.inv_csrWrite (h : s.Inv) {a : CsrAddr} (ha : csrRegistered s.cfg a = true) (v : Word) : (s.csrWrite a v).Inv :=
  ⟨h.size, h.pc, h.memory, csrWrite_wf h.csrs ha v⟩

theorem State.inv_store (h : s.Inv) {a : Nat} {v : Word} {width : Width} (ha : a + bytesOf width ≤ s.cfg.memSize) :
    State.Inv { s with mem := storeValue s.mem a v width } :=
  ⟨h.size, h.pc, storeValue_wf h.memory ha, h.csrs⟩

end

end Sys2Proof.Machine
end

