-- ==== Sys2Proof/Laws/PerInstr.lean ====
section
/-! SUPPORT. Statements about every instruction as syntax, one lemma per constructor. -/

namespace Sys2Proof.Laws

/-- The word of an instruction matches the row of the opcode table that bears its mnemonic. -/
def EncodeRow.Statement (i : Instr) : Prop :=
  ∃ row ∈ opcodeTable, row.mnemonic = i.mnemonic ∧ encode i &&& row.mask = row.pattern

theorem EncodeRow.lui (rd : RegIdx) (immU : Word) : EncodeRow.Statement (.lui rd immU) :=
  ⟨⟨"LUI", 0x0000007F#32, 0x00000037#32⟩, by decide, rfl, (uFormat_and ..).trans (by decide)⟩

theorem EncodeRow.auipc (rd : RegIdx) (immU : Word) : EncodeRow.Statement (.auipc rd immU) :=
  ⟨⟨"AUIPC", 0x0000007F#32, 0x00000017#32⟩, by decide, rfl, (uFormat_and ..).trans (by decide)⟩

theorem EncodeRow.jal (rd : RegIdx) (immJ : Word) : EncodeRow.Statement (.jal rd immJ) :=
  ⟨⟨"JAL", 0x0000007F#32, 0x0000006F#32⟩, by decide, rfl, (jFormat_and ..).trans (by decide)⟩

theorem EncodeRow.jalr (rd rs1 : RegIdx) (immI : Word) : EncodeRow.Statement (.jalr rd rs1 immI) :=
  ⟨⟨"JALR", 0x0000707F#32, 0x00000067#32⟩, by decide, rfl, (iFormat_and ..).trans (by decide)⟩

theorem EncodeRow.lb (rd rs1 : RegIdx) (immI : Word) : EncodeRow.Statement (.lb rd rs1 immI) :=
  ⟨⟨"LB", 0x0000707F#32, 0x00000003#32⟩, by decide, rfl, (iFormat_and ..).trans (by decide)⟩

theorem EncodeRow.lh (rd rs1 : RegIdx) (immI : Word) : EncodeRow.Statement (.lh rd rs1 immI) :=
  ⟨⟨"LH", 0x0000707F#32, 0x00001003#32⟩, by decide, rfl, (iFormat_and ..).trans (by decide)⟩

theorem EncodeRow.lw (rd rs1 : RegIdx) (immI : Word) : EncodeRow.Statement (.lw rd rs1 immI) :=
  ⟨⟨"LW", 0x0000707F#32, 0x00002003#32⟩, by decide, rfl, (iFormat_and ..).trans (by decide)⟩

theorem EncodeRow.lbu (rd rs1 : RegIdx) (immI : Word) : EncodeRow.Statement (.lbu rd rs1 immI) :=
  ⟨⟨"LBU", 0x0000707F#32, 0x00004003#32⟩, by decide, rfl, (iFormat_and ..).trans (by decide)⟩

theorem EncodeRow.lhu (rd rs1 : RegIdx) (immI : Word) : EncodeRow.Statement (.lhu rd rs1 immI) :=
  ⟨⟨"LHU", 0x0000707F#32, 0x00005003#32⟩, by decide, rfl, (iFormat_and ..).trans (by decide)⟩

theorem EncodeRow.sb (rs1 rs2 : RegIdx) (immS : Word) : EncodeRow.Statement (.sb rs1 rs2 immS) :=
  ⟨⟨"SB", 0x0000707F#32, 0x00000023#32⟩, by decide, rfl, (sFormat_and ..).trans (by decide)⟩

theorem EncodeRow.sh (rs1 rs2 : RegIdx) (immS : Word) : EncodeRow.Statement (.sh rs1 rs2 immS) :=
  ⟨⟨"SH", 0x0000707F#32, 0x00001023#32⟩, by decide, rfl, (sFormat_and ..).trans (by decide)⟩

theorem EncodeRow.sw (rs1 rs2 : RegIdx) (immS : Word) : EncodeRow.Statement (.sw rs1 rs2 immS) :=
  ⟨⟨"SW", 0x0000707F#32, 0x00002023#32⟩, by decide, rfl, (sFormat_and ..).trans (by decide)⟩

theorem EncodeRow.addi (rd rs1 : RegIdx) (immI : Word) : EncodeRow.Statement (.addi rd rs1 immI) :=
  ⟨⟨"ADDI", 0x0000707F#32, 0x00000013#32⟩, by decide, rfl, (iFormat_and ..).trans (by decide)⟩

theorem EncodeRow.slti (rd rs1 : RegIdx) (immI : Word) : EncodeRow.Statement (.slti rd rs1 immI) :=
  ⟨⟨"SLTI", 0x0000707F#32, 0x00002013#32⟩, by decide, rfl, (iFormat_and ..).trans (by decide)⟩

theorem EncodeRow.sltiu (rd rs1 : RegIdx) (immI : Word) : EncodeRow.Statement (.sltiu rd rs1 immI) :=
  ⟨⟨"SLTIU", 0x0000707F#32, 0x00003013#32⟩, by decide, rfl, (iFormat_and ..).trans (by decide)⟩

theorem EncodeRow.xori (rd rs1 : RegIdx) (immI : Word) : EncodeRow.Statement (.xori rd rs1 immI) :=
  ⟨⟨"XORI", 0x0000707F#32, 0x00004013#32⟩, by decide, rfl, (iFormat_and ..).trans (by decide)⟩

theorem EncodeRow.ori (rd rs1 : RegIdx) (immI : Word) : EncodeRow.Statement (.ori rd rs1 immI) :=
  ⟨⟨"ORI", 0x0000707F#32, 0x00006013#32⟩, by decide, rfl, (iFormat_and ..).trans (by decide)⟩

theorem EncodeRow.andi (rd rs1 : RegIdx) (immI : Word) : EncodeRow.Statement (.andi rd rs1 immI) :=
  ⟨⟨"ANDI", 0x0000707F#32, 0x00007013#32⟩, by decide, rfl, (iFormat_and ..).trans (by decide)⟩

theorem EncodeRow.slli (rd rs1 : RegIdx) (shamt : BitVec 5) : EncodeRow.Statement (.slli rd rs1 shamt) :=
  ⟨⟨"SLLI", 0xFE00707F#32, 0x00001013#32⟩, by decide, rfl, (rFormat_and ..).trans (by decide)⟩

theorem EncodeRow.srli (rd rs1 : RegIdx) (shamt : BitVec 5) : EncodeRow.Statement (.srli rd rs1 shamt) :=
  ⟨⟨"SRLI", 0xFE00707F#32, 0x00005013#32⟩, by decide, rfl, (rFormat_and ..).trans (by decide)⟩

theorem EncodeRow.srai (rd rs1 : RegIdx) (shamt : BitVec 5) : EncodeRow.Statement (.srai rd rs1 shamt) :=
  ⟨⟨"SRAI", 0xFE00707F#32, 0x40005013#32⟩, by decide, rfl, (rFormat_and ..).trans (by decide)⟩

theorem EncodeRow.add (rd rs1 rs2 : RegIdx) : EncodeRow.Statement (.add rd rs1 rs2) :=
  ⟨⟨"ADD", 0xFE00707F#32, 0x00000033#32⟩, by decide, rfl, (rFormat_and ..).trans (by decide)⟩

theorem EncodeRow.sub (rd rs1 rs2 : RegIdx) : EncodeRow.Statement (.sub rd rs1 rs2) :=
  ⟨⟨"SUB", 0xFE00707F#32, 0x40000033#32⟩, by decide, rfl, (rFormat_and ..).trans (by decide)⟩

theorem EncodeRow.sll (rd rs1 rs2 : RegIdx) : EncodeRow.Statement (.sll rd rs1 rs2) :=
  ⟨⟨"SLL", 0xFE00707F#32, 0x00001033#32⟩, by decide, rfl, (rFormat_and ..).trans (by decide)⟩

theorem EncodeRow.slt (rd rs1 rs2 : RegIdx) : EncodeRow.Statement (.slt rd rs1 rs2) :=
  ⟨⟨"SLT", 0xFE00707F#32, 0x00002033#32⟩, by decide, rfl, (rFormat_and ..).trans (by decide)⟩

theorem EncodeRow.sltu (rd rs1 rs2 : RegIdx) : EncodeRow.Statement (.sltu rd rs1 rs2) :=
  ⟨⟨"SLTU", 0xFE00707F#32, 0x00003033#32⟩, by decide, rfl, (rFormat_and ..).trans (by decide)⟩

theorem EncodeRow.xor (rd rs1 rs2 : RegIdx) : EncodeRow.Statement (.xor rd rs1 rs2) :=
  ⟨⟨"XOR", 0xFE00707F#32, 0x00004033#32⟩, by decide, rfl, (rFormat_and ..).trans (by decide)⟩

theorem EncodeRow.srl (rd rs1 rs2 : RegIdx) : EncodeRow.Statement (.srl rd rs1 rs2) :=
  ⟨⟨"SRL", 0xFE00707F#32, 0x00005033#32⟩, by decide, rfl, (rFormat_and ..).trans (by decide)⟩

theorem EncodeRow.sra (rd rs1 rs2 : RegIdx) : EncodeRow.Statement (.sra rd rs1 rs2) :=
  ⟨⟨"SRA", 0xFE00707F#32, 0x40005033#32⟩, by decide, rfl, (rFormat_and ..).trans (by decide)⟩

theorem EncodeRow.or (rd rs1 rs2 : RegIdx) : EncodeRow.Statement (.or rd rs1 rs2) :=
  ⟨⟨"OR", 0xFE00707F#32, 0x00006033#32⟩, by decide, rfl, (rFormat_and ..).trans (by decide)⟩

theorem EncodeRow.and (rd rs1 rs2 : RegIdx) : EncodeRow.Statement (.and rd rs1 rs2) :=
  ⟨⟨"AND", 0xFE00707F#32, 0x00007033#32⟩, by decide, rfl, (rFormat_and ..).trans (by decide)⟩

theorem EncodeRow.csrrw (rd rs1 : RegIdx) (csr : CsrAddr) : EncodeRow.Statement (.csrrw rd rs1 csr) :=
  ⟨⟨"CSRRW", 0x0000707F#32, 0x00001073#32⟩, by decide, rfl, (iFormat_and ..).trans (by decide)⟩

theorem EncodeRow.csrrs (rd rs1 : RegIdx) (csr : CsrAddr) : EncodeRow.Statement (.csrrs rd rs1 csr) :=
  ⟨⟨"CSRRS", 0x0000707F#32, 0x00002073#32⟩, by decide, rfl, (iFormat_and ..).trans (by decide)⟩

theorem EncodeRow.csrrc (rd rs1 : RegIdx) (csr : CsrAddr) : EncodeRow.Statement (.csrrc rd rs1 csr) :=
  ⟨⟨"CSRRC", 0x0000707F#32, 0x00003073#32⟩, by decide, rfl, (iFormat_and ..).trans (by decide)⟩

theorem EncodeRow.csrrwi (rd : RegIdx) (zimm : BitVec 5) (csr : CsrAddr) : EncodeRow.Statement (.csrrwi rd zimm csr) :=
  ⟨⟨"CSRRWI", 0x0000707F#32, 0x00005073#32⟩, by decide, rfl, (iFormat_and ..).trans (by decide)⟩

theorem EncodeRow.csrrsi (rd : RegIdx) (zimm : BitVec 5) (csr : CsrAddr) : EncodeRow.Statement (.csrrsi rd zimm csr) :=
  ⟨⟨"CSRRSI", 0x0000707F#32, 0x00006073#32⟩, by decide, rfl, (iFormat_and ..).trans (by decide)⟩

theorem EncodeRow.csrrci (rd : RegIdx) (zimm : BitVec 5) (csr : CsrAddr) : EncodeRow.Statement (.csrrci rd zimm csr) :=
  ⟨⟨"CSRRCI", 0x0000707F#32, 0x00007073#32⟩, by decide, rfl, (iFormat_and ..).trans (by decide)⟩

end Sys2Proof.Laws
end

