-- ==== Sys2Proof/Laws/Pseudo.lean ====
section
/-! SUPPORT. What the parts of an expansion are: hi and lo of R110 add up to the constant and fit their fields, and running a list is running its members in turn. -/

namespace Sys2Proof.Machine

variable {i : Instr} {rest : List Instr} {s t : State}

@[simp] theorem execAll_nil : execAll [] s = .next s := rfl

/-- A list whose first instruction completes goes on with the rest from there. -/
theorem execAll_cons (h : exec i s = .next t) : execAll (i :: rest) s = execAll rest t := by
  simp [execAll, h]

/-- A list of one instruction is that instruction. -/
theorem execAll_single : execAll [i] s = exec i s := by
  unfold execAll
  cases exec i s <;> rfl

theorem fitsImm12_loPart (imm : Word) : fitsImm12 (loPart imm) := fitsImm12_sext _

theorem fitsImmU_hiPart (imm : Word) : fitsImmU (hiPart imm) := fitsImmU_append _

/-- lo keeps the low 12 bits, so the difference has 12 low zeros. -/
theorem fitsImmU_sub_loPart (imm : Word) : fitsImmU (imm - loPart imm) := by
  have h : (low12 (loPart imm)).toNat = (low12 imm).toNat := by rw [loPart, low12_sext]
  simp only [low12, BitVec.extractLsb'_toNat, Nat.shiftRight_zero] at h
  unfold fitsImmU
  rw [BitVec.toNat_sub]
  omega

/-- The two parts of a constant add up to it (R110, `li`). -/
@[simp] theorem hiPart_add_loPart (imm : Word) : hiPart imm + loPart imm = imm := by
  rw [hiPart, append_high20 (fitsImmU_sub_loPart imm), BitVec.sub_add_cancel]

end Sys2Proof.Machine
end

