-- ==== Sys2Proof/Laws/Step.lean ====
section
/-! SUPPORT. What executing an instruction and making a step can do, said once: the inversion lemmas every claim about all instructions rests on. -/

namespace Sys2Proof.Machine

/-- If executing `i` answers `t`, one of five cases holds: `rd` and pc changed (an ALU or upper-immediate instruction, or
a load), memory and pc changed (a store, in bounds), `rd` and pc changed (a jump, to a multiple of 4), or a registered CSR,
`rd` and pc changed (a CSR instruction). -/
theorem exec_next_cases {i : Instr} {s t : State} (h : exec i s = .next t) :
    (i.mnemonic ∈ errorFreeNames ∧ ∃ rd v, t = (s.setReg rd v).advance) ∨
    (i.mnemonic ∈ loadNames ∧ ∃ rd v, t = (s.setReg rd v).advance) ∨
    (i.mnemonic ∈ storeNames ∧ ∃ a v width, a + bytesOf width ≤ s.cfg.memSize ∧
      t = ({ s with mem := storeValue s.mem a v width } : State).advance) ∨
    (i.mnemonic ∈ jumpNames ∧ ∃ rd target, target.toNat % 4 = 0 ∧ t = (s.setReg rd (s.pc + 4#32)).setPc target) ∨
    (i.mnemonic ∈ csrNames ∧ ∃ rd csr v old, s.csrRead csr = some old ∧
      t = ((s.csrWrite csr v).setReg rd old).advance) := by
  have hload {w rd ea wd x} (hn : i.mnemonic ∈ loadNames) (h : s.load w rd ea wd x = .next t) :=
    let h' := State.load_next h
    (show i.mnemonic ∈ loadNames ∧ ∃ rd v, t = (s.setReg rd v).advance from ⟨hn, _, _, h'.2⟩)
  have hstore {w ea v wd} (hn : i.mnemonic ∈ storeNames) (h : s.store w ea v wd = .next t) :=
    let h' := State.store_next h
    (show i.mnemonic ∈ storeNames ∧ ∃ a v width, a + bytesOf width ≤ s.cfg.memSize ∧
      t = ({ s with mem := storeValue s.mem a v width } : State).advance from
      ⟨hn, _, _, _, (State.accessFault_eq_none_iff.1 h'.1).2, h'.2⟩)
  have hjump {w rd target} (hn : i.mnemonic ∈ jumpNames) (h : s.jump w rd target = .next t) :
      i.mnemonic ∈ jumpNames ∧ ∃ rd target, target.toNat % 4 = 0 ∧ t = (s.setReg rd (s.pc + 4#32)).setPc target := by
    rcases State.jump_cases s w rd target with ⟨h1, h2⟩ | ⟨-, h2⟩
    · exact ⟨hn, _, _, h1, (Host.Outcome.next.inj (h2.symm.trans h)).symm⟩
    · exact absurd (h2.symm.trans h) (by simp)
  have hcsr {w rd csr new} (hn : i.mnemonic ∈ csrNames) (h : s.csrUpdate w rd csr new = .next t) :
      i.mnemonic ∈ csrNames ∧ ∃ rd csr v old, s.csrRead csr = some old ∧
        t = ((s.csrWrite csr v).setReg rd old).advance := by
    obtain ⟨old, h1, h2⟩ := State.csrUpdate_next h
    exact ⟨hn, _, _, _, _, h1, h2⟩
  cases i
  case lb | lh | lw | lbu | lhu => exact .inr (.inl (hload (by simp [Instr.mnemonic, loadNames]) h))
  case sb | sh | sw => exact .inr (.inr (.inl (hstore (by simp [Instr.mnemonic, storeNames]) h)))
  case jal | jalr => exact .inr (.inr (.inr (.inl (hjump (by simp [Instr.mnemonic, jumpNames]) h))))
  case csrrw | csrrs | csrrc | csrrwi | csrrsi | csrrci =>
    exact .inr (.inr (.inr (.inr (hcsr (by simp [Instr.mnemonic, csrNames]) h))))
  all_goals exact .inl ⟨by simp [Instr.mnemonic, errorFreeNames], _, _, (Host.Outcome.next.inj h).symm⟩

/-- If executing `i` faults, one of three cases holds: the access of a load or store is refused, a CSR address is not
registered, or a jump's target is not a multiple of 4; the fault reports pc and the word of `i`. -/
theorem exec_fault_cases {i : Instr} {s : State} {f : Fault} (h : exec i s = .fault f) :
    (∃ ea width, s.accessFault (encode i) ea width = some f ∧ i.mnemonic ∈ loadNames ++ storeNames ∧
      (width ≠ .byte → i.mnemonic ∈ ["LH", "LW", "LHU", "SH", "SW"])) ∨
    (∃ csr, f = .execUnsupportedCsr s.pc (encode i) csr ∧ i.mnemonic ∈ csrNames) ∨
    (∃ target, f = .execMisalignedJumpTarget s.pc (encode i) target ∧ i.mnemonic ∈ jumpNames) := by
  have hjump {rd target} (hn : i.mnemonic ∈ jumpNames) (h : s.jump (encode i) rd target = .fault f) :
      ∃ target, f = .execMisalignedJumpTarget s.pc (encode i) target ∧ i.mnemonic ∈ jumpNames := by
    rcases State.jump_cases s (encode i) rd target with ⟨-, h2⟩ | ⟨-, h2⟩
    · exact absurd (h2.symm.trans h) (by simp)
    · exact ⟨_, (Host.Outcome.fault.inj (h2.symm.trans h)).symm, hn⟩
  cases i
  case lb | lbu => exact .inl ⟨_, _, State.load_fault h, by simp [Instr.mnemonic, loadNames], by simp⟩
  case lh | lw | lhu =>
    exact .inl ⟨_, _, State.load_fault h, by simp [Instr.mnemonic, loadNames], fun _ => by simp [Instr.mnemonic]⟩
  case sb => exact .inl ⟨_, _, State.store_fault h, by simp [Instr.mnemonic, storeNames], by simp⟩
  case sh | sw =>
    exact .inl ⟨_, _, State.store_fault h, by simp [Instr.mnemonic, storeNames], fun _ => by simp [Instr.mnemonic]⟩
  case jal | jalr => exact .inr (.inr (hjump (by simp [Instr.mnemonic, jumpNames]) h))
  case csrrw | csrrs | csrrc | csrrwi | csrrsi | csrrci =>
    exact .inr (.inl ⟨_, (State.csrUpdate_fault h).2, by simp [Instr.mnemonic, csrNames]⟩)
  all_goals exact absurd (show Host.Outcome.next _ = Host.Outcome.fault f from h) (by simp)

/-- A step that succeeds fetched a word, decoded it and executed the instruction. -/
theorem step_next {s t : State} (h : step s = .next t) :
    ∃ w i, s.fetch = some w ∧ decode w = .ok i ∧ exec i s = .next t := by
  unfold step at h
  split at h
  · simp at h
  · split at h
    · simp at h
    · exact ⟨_, _, ‹_›, ‹_›, h⟩

/-- A step that faults did so at the fetch, at the decode, or in the execution of the decoded instruction, in that order
(R264). -/
theorem step_fault {s : State} {f : Fault} (h : step s = .fault f) :
    (s.fetch = none ∧ f = .fetchOutOfBounds s.pc) ∨
    (∃ w e, s.fetch = some w ∧ decode w = .error e ∧ f = decodeFault s.pc w e) ∨
    (∃ w i, s.fetch = some w ∧ decode w = .ok i ∧ exec i s = .fault f) := by
  unfold step at h
  split at h
  · next hf => exact .inl ⟨hf, (Host.Outcome.fault.inj h).symm⟩
  · next w hf =>
    split at h
    · next e hd => exact .inr (.inl ⟨w, e, hf, hd, (Host.Outcome.fault.inj h).symm⟩)
    · next i hd => exact .inr (.inr ⟨w, i, hf, hd, h⟩)

end Sys2Proof.Machine
end

