-- ==== Sys2Proof/Tests/Slice0.lean ====
section
/-! SUPPORT. Tests and witnesses. Expected results come from spec/95_test_vectors.md and the examples of spec/41_alu.md to
spec/45_csr.md; instruction words in binary are written out from the format rules R83 to R95. -/

namespace Sys2Proof.Tests

open Sys2Proof.Machine

/-! ### WellFormed: an ill-formed term for each check -/

theorem test_illFormed_immI_above : (Instr.addi 1 2 2048#32).wellFormed = false := by decide
theorem test_illFormed_immI_below : (Instr.lw 1 2 (-2049#32)).wellFormed = false := by decide
theorem test_illFormed_immS : (Instr.sw 1 2 2048#32).wellFormed = false := by decide
theorem test_illFormed_immU : (Instr.lui 1 0x12345001#32).wellFormed = false := by decide
theorem test_illFormed_immJ_odd : (Instr.jal 1 3#32).wellFormed = false := by decide
theorem test_illFormed_immJ_above : (Instr.jal 1 1048576#32).wellFormed = false := by decide
theorem test_illFormed_immJ_below : (Instr.jal 1 (-1048578#32)).wellFormed = false := by decide
theorem test_wellFormed_extremes :
    (Instr.addi 1 2 2047#32).wellFormed = true ∧ (Instr.sb 1 2 (-2048#32)).wellFormed = true ∧
    (Instr.jal 1 1048574#32).wellFormed = true ∧ (Instr.jal 1 (-1048576#32)).wellFormed = true := by decide

/-! ### Decoding: every constructor, by a word written out from its encoding -/

theorem test_decode_op :
    decode 0b00000000001100010000000010110011#32 = .ok (.add 1 2 3) ∧
    decode 0b01000000001100010000000010110011#32 = .ok (.sub 1 2 3) ∧
    decode 0b00000000001100010001000010110011#32 = .ok (.sll 1 2 3) ∧
    decode 0b00000000001100010010000010110011#32 = .ok (.slt 1 2 3) ∧
    decode 0b00000000001100010011000010110011#32 = .ok (.sltu 1 2 3) ∧
    decode 0b00000000001100010100000010110011#32 = .ok (.xor 1 2 3) ∧
    decode 0b00000000001100010101000010110011#32 = .ok (.srl 1 2 3) ∧
    decode 0b01000000001100010101000010110011#32 = .ok (.sra 1 2 3) ∧
    decode 0b00000000001100010110000010110011#32 = .ok (.or 1 2 3) ∧
    decode 0b00000000001100010111000010110011#32 = .ok (.and 1 2 3) := by decide

theorem test_decode_opImm :
    decode 0b11111111101000010000000010010011#32 = .ok (.addi 1 2 (-6#32)) ∧
    decode 0b11111111101000010010000010010011#32 = .ok (.slti 1 2 (-6#32)) ∧
    decode 0b11111111101000010011000010010011#32 = .ok (.sltiu 1 2 (-6#32)) ∧
    decode 0b11111111101000010100000010010011#32 = .ok (.xori 1 2 (-6#32)) ∧
    decode 0b11111111101000010110000010010011#32 = .ok (.ori 1 2 (-6#32)) ∧
    decode 0b11111111101000010111000010010011#32 = .ok (.andi 1 2 (-6#32)) ∧
    decode 0b00000001111000010001000010010011#32 = .ok (.slli 1 2 30#5) ∧
    decode 0b00000000010000010101000010010011#32 = .ok (.srli 1 2 4#5) ∧
    decode 0b01000000010000010101000010010011#32 = .ok (.srai 1 2 4#5) := by decide

theorem test_decode_load :
    decode 0b10000000000100010000000010000011#32 = .ok (.lb 1 2 (-2047#32)) ∧
    decode 0b10000000000100010001000010000011#32 = .ok (.lh 1 2 (-2047#32)) ∧
    decode 0b10000000000100010010000010000011#32 = .ok (.lw 1 2 (-2047#32)) ∧
    decode 0b10000000000100010100000010000011#32 = .ok (.lbu 1 2 (-2047#32)) ∧
    decode 0b10000000000100010101000010000011#32 = .ok (.lhu 1 2 (-2047#32)) := by decide

theorem test_decode_store :
    decode 0b10000000000100010000000010100011#32 = .ok (.sb 2 1 (-2047#32)) ∧
    decode 0b10000000000100010001000010100011#32 = .ok (.sh 2 1 (-2047#32)) ∧
    decode 0b10000000000100010010000010100011#32 = .ok (.sw 2 1 (-2047#32)) := by decide

theorem test_decode_jump :
    decode 0b10000000011100000101000011101111#32 = .ok (.jal 1 (-1026042#32)) ∧
    decode 0b00000000000000101000000011100111#32 = .ok (.jalr 1 5 0#32) := by decide

theorem test_decode_upper :
    decode 0b00010010001101000101000010110111#32 = .ok (.lui 1 0x12345000#32) ∧
    decode 0b11111111111111111111000010010111#32 = .ok (.auipc 1 0xFFFFF000#32) := by decide

theorem test_decode_csr :
    decode 0b00110000000000010001000011110011#32 = .ok (.csrrw 1 2 0x300#12) ∧
    decode 0b00110000000000010010000011110011#32 = .ok (.csrrs 1 2 0x300#12) ∧
    decode 0b00110000000000010011000011110011#32 = .ok (.csrrc 1 2 0x300#12) ∧
    decode 0b00110100000011111101000011110011#32 = .ok (.csrrwi 1 31#5 0x340#12) ∧
    decode 0b00110100000010001110000011110011#32 = .ok (.csrrsi 1 17#5 0x340#12) ∧
    decode 0b11111111111111111111000011110011#32 = .ok (.csrrci 1 31#5 0xFFF#12) := by decide

theorem test_encode_op :
    encode (.add 1 2 3) = 0b00000000001100010000000010110011#32 ∧
    encode (.sub 1 2 3) = 0b01000000001100010000000010110011#32 ∧
    encode (.sll 1 2 3) = 0b00000000001100010001000010110011#32 ∧
    encode (.slt 1 2 3) = 0b00000000001100010010000010110011#32 ∧
    encode (.sltu 1 2 3) = 0b00000000001100010011000010110011#32 ∧
    encode (.xor 1 2 3) = 0b00000000001100010100000010110011#32 ∧
    encode (.srl 1 2 3) = 0b00000000001100010101000010110011#32 ∧
    encode (.sra 1 2 3) = 0b01000000001100010101000010110011#32 ∧
    encode (.or 1 2 3) = 0b00000000001100010110000010110011#32 ∧
    encode (.and 1 2 3) = 0b00000000001100010111000010110011#32 := by decide

theorem test_encode_opImm :
    encode (.addi 1 2 (-6#32)) = 0b11111111101000010000000010010011#32 ∧
    encode (.slti 1 2 (-6#32)) = 0b11111111101000010010000010010011#32 ∧
    encode (.sltiu 1 2 (-6#32)) = 0b11111111101000010011000010010011#32 ∧
    encode (.xori 1 2 (-6#32)) = 0b11111111101000010100000010010011#32 ∧
    encode (.ori 1 2 (-6#32)) = 0b11111111101000010110000010010011#32 ∧
    encode (.andi 1 2 (-6#32)) = 0b11111111101000010111000010010011#32 ∧
    encode (.slli 1 2 30#5) = 0b00000001111000010001000010010011#32 ∧
    encode (.srli 1 2 4#5) = 0b00000000010000010101000010010011#32 ∧
    encode (.srai 1 2 4#5) = 0b01000000010000010101000010010011#32 := by decide

theorem test_encode_load :
    encode (.lb 1 2 (-2047#32)) = 0b10000000000100010000000010000011#32 ∧
    encode (.lh 1 2 (-2047#32)) = 0b10000000000100010001000010000011#32 ∧
    encode (.lw 1 2 (-2047#32)) = 0b10000000000100010010000010000011#32 ∧
    encode (.lbu 1 2 (-2047#32)) = 0b10000000000100010100000010000011#32 ∧
    encode (.lhu 1 2 (-2047#32)) = 0b10000000000100010101000010000011#32 := by decide

theorem test_encode_store :
    encode (.sb 2 1 (-2047#32)) = 0b10000000000100010000000010100011#32 ∧
    encode (.sh 2 1 (-2047#32)) = 0b10000000000100010001000010100011#32 ∧
    encode (.sw 2 1 (-2047#32)) = 0b10000000000100010010000010100011#32 := by decide

theorem test_encode_jump :
    encode (.jal 1 (-1026042#32)) = 0b10000000011100000101000011101111#32 ∧
    encode (.jalr 1 5 0#32) = 0b00000000000000101000000011100111#32 := by decide

theorem test_encode_upper :
    encode (.lui 1 0x12345000#32) = 0b00010010001101000101000010110111#32 ∧
    encode (.auipc 1 0xFFFFF000#32) = 0b11111111111111111111000010010111#32 := by decide

theorem test_encode_csr :
    encode (.csrrw 1 2 0x300#12) = 0b00110000000000010001000011110011#32 ∧
    encode (.csrrs 1 2 0x300#12) = 0b00110000000000010010000011110011#32 ∧
    encode (.csrrc 1 2 0x300#12) = 0b00110000000000010011000011110011#32 ∧
    encode (.csrrwi 1 31#5 0x340#12) = 0b00110100000011111101000011110011#32 ∧
    encode (.csrrsi 1 17#5 0x340#12) = 0b00110100000010001110000011110011#32 ∧
    encode (.csrrci 1 31#5 0xFFF#12) = 0b11111111111111111111000011110011#32 := by decide

/-- spec/95_test_vectors.md, section F. -/
theorem test_decode_excluded : [0x00000073#32, 0x00100073#32, 0x30200073#32, 0x10500073#32, 0x12000073#32, 0x0000000F#32, 0x0FF0000F#32, 0x0000100F#32, 0x00000063#32, 0x00001063#32, 0x00007063#32].map decode =
    .replicate 11 (.error .notImplemented) := by decide

theorem test_decode_malformed : [0x00002063#32, 0x00000000#32, 0xFFFFFFFF#32, 0x02208033#32, 0x80000033#32, 0x40001033#32, 0x40001013#32, 0x02005013#32, 0x00003003#32].map decode =
    .replicate 9 (.error .malformed) := by decide

theorem test_decode_malformed_more : [0x00006003#32, 0x00003023#32, 0x00001067#32, 0x00004073#32, 0x0000202F#32, 0x0000000B#32, 0x00000001#32, 0x7E000033#32, 0x0000500F#32].map decode =
    .replicate 9 (.error .malformed) := by decide

theorem test_decodeBytes_littleEndian : decodeBytes 0xB3#8 0x00#8 0x31#8 0x00#8 = .ok (.add 1 2 3) := by decide

/-! ### One step of each instruction: spec/95_test_vectors.md, sections A to E -/

/-- The start of the vectors: pc 0x10, MEM_SIZE 64, Mem[0x20..0x24] = 80 FF 34 12 7F, CSR_INIT 0x300 holding 8 and 0x340 holding 0,
the registers given. -/
def startWith (m : MisalignedData) (xs : List (RegIdx × Word)) : State :=
  xs.foldl (fun s x => s.setReg x.1 x.2)
    { State.reset with
      cfg := ⟨64, m, [⟨0x300#12, 0x300#12⟩, ⟨0x340#12, 0x340#12⟩]⟩
      pc := 0x10#32
      csrs := [(0x300, 8#32)]
      mem := [(0x20, 0x80#8), (0x21, 0xFF#8), (0x22, 0x34#8), (0x23, 0x12#8), (0x24, 0x7F#8)] }

def start : List (RegIdx × Word) → State := startWith .permit

/-- One step with the word `w` at pc. -/
def run (s : State) (w : Word) : Host.Outcome State Fault Refusal := step { s with mem := s.mem.setWord s.pc.toNat w }

/-- The step succeeds and its next state passes the test. -/
def gives (o : Host.Outcome State Fault Refusal) (p : State → Bool) : Bool :=
  match o with
  | .next s => p s
  | .fault _ => false
  | .refused _ => false

/-- The step faults with `f`. -/
def faults (o : Host.Outcome State Fault Refusal) (f : Fault) : Bool :=
  match o with
  | .next _ => false
  | .fault g => decide (g = f)
  | .refused _ => false

/-- The step succeeds with `v` in register `rd` and pc at 0x14. -/
def writes (o : Host.Outcome State Fault Refusal) (rd : RegIdx) (v : Word) : Bool :=
  gives o fun s => s.reg rd == v && s.pc == 0x14#32

/-- The step succeeds with the bytes at `a` onward and pc at 0x14. -/
def stores (o : Host.Outcome State Fault Refusal) (a : Nat) (bs : List Byte) : Bool :=
  gives o fun s => s.mem.range a bs.length == bs && s.pc == 0x14#32

/-- The step succeeds with `old` in x1, `new` in the CSR and pc at 0x14. -/
def swaps (o : Host.Outcome State Fault Refusal) (old : Word) (csr : CsrAddr) (new : Word) : Bool :=
  gives o fun s => s.reg 1 == old && s.csrRead csr == some new && s.pc == 0x14#32

theorem test_add_wraps : writes (run (start [(2, 0xFFFFFFFF), (3, 0x1)]) 0x003100B3#32) 1 0x00000000#32 = true := by decide
theorem test_add_x0 : writes (run (start [(2, 0x5), (3, 0x6)]) 0x00310033#32) 0 0x0#32 = true := by decide
theorem test_sub_borrows : writes (run (start [(2, 0x0), (3, 0x1)]) 0x403100B3#32) 1 0xFFFFFFFF#32 = true := by decide
theorem test_sub_from_x0 : writes (run (start [(2, 0x80000000)]) 0x402000B3#32) 1 0x80000000#32 = true := by decide
theorem test_sll_low5 : writes (run (start [(2, 0x1), (3, 0x21)]) 0x003110B3#32) 1 0x2#32 = true := by decide
theorem test_sll_31 : writes (run (start [(2, 0x3), (3, 0x1F)]) 0x003110B3#32) 1 0x80000000#32 = true := by decide
theorem test_slt_extremes : writes (run (start [(2, 0x80000000), (3, 0x7FFFFFFF)]) 0x003120B3#32) 1 0x1#32 = true := by decide
theorem test_slt_swapped : writes (run (start [(2, 0x80000000), (3, 0x7FFFFFFF)]) 0x0021A0B3#32) 1 0x0#32 = true := by decide
theorem test_sltu_max : writes (run (start [(2, 0xFFFFFFFF), (3, 0x1)]) 0x003130B3#32) 1 0x0#32 = true := by decide
theorem test_sltu_snez : writes (run (start [(3, 0x5)]) 0x003030B3#32) 1 0x1#32 = true := by decide
theorem test_xor : writes (run (start [(2, 0xF0F0F0F0), (3, 0xFF00FF00)]) 0x003140B3#32) 1 0x0FF00FF0#32 = true := by decide
theorem test_srl_low5 : writes (run (start [(2, 0xF0000000), (3, 0xFFFFFFE4)]) 0x003150B3#32) 1 0x0F000000#32 = true := by decide
theorem test_sra_31 : writes (run (start [(2, 0x80000000), (3, 0x1F)]) 0x403150B3#32) 1 0xFFFFFFFF#32 = true := by decide
theorem test_sra_32 : writes (run (start [(2, 0x80000000), (3, 0x20)]) 0x403150B3#32) 1 0x80000000#32 = true := by decide
theorem test_or : writes (run (start [(2, 0xF0F0F0F0), (3, 0x0F0F0F0F)]) 0x003160B3#32) 1 0xFFFFFFFF#32 = true := by decide
theorem test_and : writes (run (start [(2, 0xF0F0F0F0), (3, 0xFF00FF00)]) 0x003170B3#32) 1 0xF000F000#32 = true := by decide
theorem test_addi_negative : writes (run (start [(2, 0x5)]) 0xFFA10093#32) 1 0xFFFFFFFF#32 = true := by decide
theorem test_addi_max : writes (run (start [(2, 0x7FFFF800)]) 0x7FF10093#32) 1 0x7FFFFFFF#32 = true := by decide
theorem test_slti_negative : writes (run (start [(2, 0xFFFFFFFE)]) 0xFFF12093#32) 1 0x1#32 = true := by decide
theorem test_slti_false : writes (run (start [(2, 0x5)]) 0xFFF12093#32) 1 0x0#32 = true := by decide
theorem test_sltiu_signExtends : writes (run (start [(2, 0x5)]) 0xFFF13093#32) 1 0x1#32 = true := by decide
theorem test_sltiu_seqz : writes (run (start [(2, 0x9)]) 0x00113093#32) 1 0x0#32 = true := by decide
theorem test_xori_not : writes (run (start [(2, 0x12345678)]) 0xFFF14093#32) 1 0xEDCBA987#32 = true := by decide
theorem test_ori_negative : writes (run (start [(2, 0x12340000)]) 0x80016093#32) 1 0xFFFFF800#32 = true := by decide
theorem test_andi : writes (run (start [(2, 0x12345678)]) 0x0FF17093#32) 1 0x78#32 = true := by decide
theorem test_andi_negative : writes (run (start [(2, 0x12345FFF)]) 0x80017093#32) 1 0x12345800#32 = true := by decide
theorem test_slli : writes (run (start [(2, 0x3)]) 0x01E11093#32) 1 0xC0000000#32 = true := by decide
theorem test_srli : writes (run (start [(2, 0xF0000000)]) 0x00415093#32) 1 0x0F000000#32 = true := by decide
theorem test_srai : writes (run (start [(2, 0xF0000000)]) 0x40415093#32) 1 0xFF000000#32 = true := by decide
theorem test_srai_positive : writes (run (start [(2, 0x7FFFFFFF)]) 0x41F15093#32) 1 0x0#32 = true := by decide
theorem test_lui : writes (run (start []) 0xFFFFF0B7#32) 1 0xFFFFF000#32 = true := by decide
theorem test_auipc : writes (run (start []) 0xFFFFF097#32) 1 0xFFFFF010#32 = true := by decide
theorem test_lb_signed : writes (run (start [(2, 0x20)]) 0x00010083#32) 1 0xFFFFFF80#32 = true := by decide
theorem test_lh_unaligned : writes (run (start [(2, 0x20)]) 0x00111083#32) 1 0x34FF#32 = true := by decide
theorem test_lw_unaligned : writes (run (start [(2, 0x20)]) 0x00112083#32) 1 0x7F1234FF#32 = true := by decide
theorem test_lbu : writes (run (start [(2, 0x20)]) 0x00014083#32) 1 0x80#32 = true := by decide
theorem test_lhu : writes (run (start [(2, 0x20)]) 0x00015083#32) 1 0xFF80#32 = true := by decide

theorem test_sb : stores (run (start [(1, 0xAB), (2, 0x20)]) 0x001100A3#32) 0x20 [0x80#8, 0xAB#8, 0x34#8, 0x12#8] = true := by decide
theorem test_sh_unaligned : stores (run (start [(1, 0xBEEF), (2, 0x20)]) 0x001110A3#32) 0x20 [0x80#8, 0xEF#8, 0xBE#8, 0x12#8, 0x7F#8] = true := by decide
theorem test_sw_unaligned : stores (run (start [(1, 0xAABBCCDD), (2, 0x32)]) 0xFE112FA3#32) 0x30 [0x00#8, 0xDD#8, 0xCC#8, 0xBB#8, 0xAA#8, 0x00#8] = true := by decide

theorem test_jal : gives (run (start []) 0x008000EF#32) (fun s => s.reg 1 == 0x14#32 && s.pc == 0x18#32) = true := by decide
theorem test_jal_below_zero : gives (run (start []) 0xFEDFF06F#32) (fun s => s.reg 1 == 0x0#32 && s.pc == 0xFFFFFFFC#32) = true := by decide
theorem test_jalr_clears_bit0 : gives (run (start [(5, 0x101)]) 0x000280E7#32) (fun s => s.reg 1 == 0x14#32 && s.pc == 0x100#32) = true := by decide
theorem test_jalr_old_base : gives (run (start [(1, 0x40)]) 0x000080E7#32) (fun s => s.reg 1 == 0x14#32 && s.pc == 0x40#32) = true := by decide

theorem test_csrrw_swaps : swaps (run (start [(1, 0x55)]) 0x300090F3#32) 0x8#32 0x300#12 0x55#32 = true := by decide
theorem test_csrrs : swaps (run (start [(2, 0x80)]) 0x300120F3#32) 0x8#32 0x300#12 0x88#32 = true := by decide
theorem test_csrrs_x0 : swaps (run (start []) 0x300020F3#32) 0x8#32 0x300#12 0x8#32 = true := by decide
theorem test_csrrc : swaps (run (start [(2, 0x8)]) 0x300130F3#32) 0x8#32 0x300#12 0x0#32 = true := by decide
theorem test_csrrc_x0 : swaps (run (start []) 0x300030F3#32) 0x8#32 0x300#12 0x8#32 = true := by decide
theorem test_csrrwi_zeroExtends : swaps (run (start []) 0x340850F3#32) 0x0#32 0x340#12 0x10#32 = true := by decide
theorem test_csrrsi : swaps (run (start []) 0x3008E0F3#32) 0x8#32 0x300#12 0x19#32 = true := by decide
theorem test_csrrci : swaps (run (start []) 0x300FF0F3#32) 0x8#32 0x300#12 0x0#32 = true := by decide

/-! ### Errors: spec/95_test_vectors.md, sections B, C, E and G -/

theorem test_lw_oob : faults (run (startWith .permit [(2, 0x3D)]) 0x00012083#32)
    (.execMemOutOfBounds 0x10 0x00012083 0x3D .word) = true := by decide
theorem test_lb_x0_oob : faults (run (startWith .permit [(2, 0x40)]) 0x00010003#32)
    (.execMemOutOfBounds 0x10 0x00010003 0x40 .byte) = true := by decide
theorem test_lh_misaligned : faults (run (startWith .fault [(2, 0x40)]) 0x00111083#32)
    (.execMisalignedAccess 0x10 0x00111083 0x41 .half) = true := by decide
theorem test_sw_misaligned : faults (run (startWith .fault [(1, 0x1), (2, 0x20)]) 0x00112123#32)
    (.execMisalignedAccess 0x10 0x00112123 0x22 .word) = true := by decide
theorem test_sh_oob : faults (run (startWith .permit [(1, 0x1122), (2, 0x3F)]) 0x00111023#32)
    (.execMemOutOfBounds 0x10 0x00111023 0x3F .half) = true := by decide
theorem test_csrrw_unregistered : faults (run (startWith .permit [(2, 0x1)]) 0x7C011073#32)
    (.execUnsupportedCsr 0x10 0x7C011073 0x7C0) = true := by decide
theorem test_csrrci_unregistered : faults (run (startWith .permit []) 0x1230F073#32)
    (.execUnsupportedCsr 0x10 0x1230F073 0x123) = true := by decide
theorem test_ecall : faults (run (startWith .permit []) 0x00000073#32)
    (.decodeNotImplemented 0x10 0x00000073) = true := by decide
theorem test_zero_word : faults (run (startWith .permit []) 0x00000000#32)
    (.decodeMalformed 0x10 0x00000000) = true := by decide

/-- `start` with another MEM_SIZE and pc. -/
def at_ (memSize : Nat) (pc : Word) : State := { start [] with cfg := { (start []).cfg with memSize := memSize }, pc := pc }

theorem test_fetch_empty : faults (step (at_ 0 0#32)) (.fetchOutOfBounds 0#32) = true := by decide
theorem test_fetch_partial : faults (step (at_ 10 8#32)) (.fetchOutOfBounds 8#32) = true := by decide
theorem test_fetch_top : faults (step (at_ 0x80 0xFFFFFFFC#32)) (.fetchOutOfBounds 0xFFFFFFFC#32) = true := by decide
theorem test_construct_misaligned :
    State.construct { resetParams with initPc := 2#32 } = .refused (.initPcMisaligned 2#32) := rfl
theorem test_withFetchWord_runs :
    gives (step (State.reset.withFetchWord 32 0x00500093)) (fun s => s.reg 1 == 5#32 && s.pc == 4#32) = true := by decide
theorem test_decodeTableWord : decodeTableWord 32 0x003100B3 = some (.add 1 2 3) := by decide
theorem test_opcodeTable_rows : opcodeTable.length = 37 := by decide


/-! ### Witnesses: for each obligation with hypotheses, a state and operands that meet them, at the boundary of each clause -/

open Sys2Proof.Claims

theorem inv_of {s : State} (h : s.cfg.memSize ≤ 4294967296 ∧ s.pc.toNat % 4 = 0 ∧ Memory.wf s.cfg.memSize s.mem ∧
    CsrBank.wf s.cfg s.csrs) : s.Inv := ⟨h.1, h.2.1, h.2.2.1, h.2.2.2⟩

/-- The parameters of `start`. -/
def params : Params := ⟨(start []).cfg, (start []).mem, Vector.replicate 31 7#32, 0x10#32, (start []).csrs⟩

/-- `start` with another pc. -/
def atPc (pc : Word) : State := { start [] with pc := pc }

/-- `start` with the word `w` at pc and the registers given. -/
def withWord (w : Word) (xs : List (RegIdx × Word)) : State :=
  { start xs with mem := (start xs).mem.setWord 0x10 w }

theorem witness_ConstructionSetsEveryPiece : params.initPc.toNat % 4 = 0 ∧ goodParams params := by decide
theorem witness_ConstructionRefusesMisalignedPc_refused : ({ params with initPc := 0x12#32 } : Params).initPc.toNat % 4 ≠ 0 := by
  decide
theorem witness_ConstructionRefusesMisalignedPc_accepted : ∃ s, State.construct params = .next s := ⟨_, rfl⟩
theorem witness_ConstructionSatisfiesInvariant : ∃ s, State.construct params = .next s := ⟨_, rfl⟩
theorem witness_StepKeepsInvariant : (withWord 0x001100A3#32 [(2, 0x3E)]).Inv ∧
    ∃ t, step (withWord 0x001100A3#32 [(2, 0x3E)]) = .next t := ⟨inv_of (by decide), _, rfl⟩
theorem witness_PcAlignedWhereverReached : ∃ s t, State.construct { params with initMem := (withWord 0x008000EF#32 []).mem } = .next s ∧
    step s = .next t ∧ State.Reaches s t := ⟨_, _, rfl, rfl, .step .refl rfl⟩
theorem witness_StepKeepsConfiguration : (∃ t, exec (.csrrw 1 2 0x300) (start []) = .next t) ∧
    ∃ t, step (withWord 0x300090F3#32 []) = .next t := ⟨⟨_, rfl⟩, _, rfl⟩

/-- A word at pc = MEM_SIZE - 4, the last address a word is fetched from. -/
def lastWord : State := { atPc 0x3C#32 with mem := [(0x3C, 0x13#8)] }
theorem witness_StepRunsDecodedInstruction : InBounds lastWord lastWord.pc.toNat 4 ∧
    decode (lastWord.byte (lastWord.pc.toNat + 3) ++ lastWord.byte (lastWord.pc.toNat + 2) ++
      lastWord.byte (lastWord.pc.toNat + 1) ++ lastWord.byte lastWord.pc.toNat) = .ok (.addi 0 0 0) :=
  ⟨show _ ≤ _ by decide, by decide⟩
theorem witness_FetchReadsWordAtPc_in : InBounds lastWord lastWord.pc.toNat 4 := show _ ≤ _ by decide
theorem witness_FetchReadsWordAtPc_out : ¬ InBounds (atPc 0x40#32) (atPc 0x40#32).pc.toNat 4 := show ¬ _ ≤ _ by decide
theorem witness_DecodeFailureEndsStep_notImplemented :
    (withWord 0x00000073#32 []).fetch = some 0x73#32 ∧ decode 0x73#32 = .error .notImplemented := by decide
theorem witness_DecodeFailureEndsStep_malformed :
    (atPc 0x10#32).fetch = some 0#32 ∧ decode 0#32 = .error .malformed := by decide
theorem witness_FailingStepReportsPcAndWord_fetch : ∃ f, step (atPc 0x40#32) = .fault f := ⟨_, rfl⟩
theorem witness_FailingStepReportsPcAndWord_decode : ∃ f, step (atPc 0x10#32) = .fault f := ⟨_, rfl⟩
theorem witness_FailingStepReportsPcAndWord_execute : ∃ f, step (withWord 0x00012083#32 [(2, 0x3D)]) = .fault f := ⟨_, rfl⟩
theorem witness_ErrorsComeFromTheirInstructions_4 : ∃ f, exec (.lb 0 2 0) (start [(2, 0x40)]) = .fault f ∧ faultCode f = 4 :=
  ⟨_, rfl, rfl⟩
theorem witness_ErrorsComeFromTheirInstructions_5 :
    ∃ f, exec (.sw 2 1 2) (startWith .fault [(2, 0x20)]) = .fault f ∧ faultCode f = 5 := ⟨_, rfl, rfl⟩
theorem witness_ErrorsComeFromTheirInstructions_6 : ∃ f, exec (.csrrci 0 1 0x123) (start []) = .fault f ∧ faultCode f = 6 :=
  ⟨_, rfl, rfl⟩
theorem witness_ErrorsComeFromTheirInstructions_7 : ∃ f, exec (.jal 1 2) (start []) = .fault f ∧ faultCode f = 7 := ⟨_, rfl, rfl⟩
theorem witness_PlacedWordRunsNext : (atPc 0xFFFFFFFC#32).Inv ∧ decode (tableWord 32 0x003100B3) = .ok (.add 1 2 3) :=
  ⟨inv_of (by decide), by decide⟩

theorem witness_DecodeFollowsOpcodeTable_row : ⟨"SRAI", 0xFE00707F#32, 0x40005013#32⟩ ∈ opcodeTable ∧
    0x40415093#32 &&& 0xFE00707F#32 = 0x40005013#32 := by decide
theorem witness_NoTwoRowsMatch : ⟨"SRAI", 0xFE00707F#32, 0x40005013#32⟩ ∈ opcodeTable ∧
    0x40005013#32 &&& 0xFE00707F#32 = 0x40005013#32 := by decide
theorem witness_DecodeFollowsOpcodeTable_none : ¬ HasRow 0x00000073#32 :=
  show ¬ ∃ row ∈ opcodeTable, _ by decide
theorem witness_ExcludedEncodingsNotImplemented : Excluded 0x0000100F#32 ∧ decode 0x0000100F#32 = .error .notImplemented :=
  ⟨.inr (.inl (by decide)), by decide⟩
theorem witness_OtherWordsMalformed : ¬ HasRow 0x00002063#32 ∧ ¬ Excluded 0x00002063#32 ∧
    0x02208033#32 &&& 0xFE00007F#32 = 0x02000033#32 ∧ (0x00000001#32).extractLsb' 0 2 ≠ 0b11#2 := by
  refine ⟨show ¬ ∃ row ∈ opcodeTable, _ from ?_, show ¬ (_ ∨ _ ∨ _) from ?_, ?_⟩ <;> decide
theorem witness_DecodeOfEncode : (Instr.jal 31 (-1048576)).wellFormed = true ∧ (Instr.sw 31 31 2047).wellFormed = true := by decide
theorem witness_EncodeOfDecode : decode 0xFFF03073#32 = .ok (.csrrc 0 0 0xFFF) := by decide
/-- Each `Encodes` clause has a word that matches: its own pattern. -/
theorem witness_Encodes : ∀ row ∈ opcodeTable, row.pattern &&& row.mask = row.pattern := by decide
theorem witness_AluTouchesNoMemoryAndNoCsr : (Instr.auipc 1 0x1000).mnemonic ∈ errorFreeNames ∧
    (Instr.add 0 1 2).mnemonic ∈ errorFreeNames := by decide

theorem witness_ShiftImmediateResults : 0x40001013#32 &&& 0x0000707F#32 = 0x00001013#32 ∧
    (0x40001013#32).extractLsb' 25 7 ≠ 0#7 ∧ (0x02001013#32).extractLsb' 25 7 ≠ 0#7 := by decide

/-! The access of `n` bytes at MEM_SIZE - n is in bounds, at MEM_SIZE - n + 1 it is not; under `fault`, a misaligned one. -/

theorem witness_access_in : Aligned (startWith .fault []) 0x3F 1 ∧ InBounds (startWith .fault []) 0x3F 1 ∧
    Aligned (startWith .fault []) 0x3E 2 ∧ InBounds (startWith .fault []) 0x3E 2 ∧
    Aligned (startWith .fault []) 0x3C 4 ∧ InBounds (startWith .fault []) 0x3C 4 := by
  refine ⟨fun _ => ?_, show _ ≤ _ from ?_, fun _ => ?_, show _ ≤ _ from ?_, fun _ => ?_, show _ ≤ _ from ?_⟩ <;> decide
theorem witness_access_out : Aligned (start []) 0x40 1 ∧ ¬ InBounds (start []) 0x40 1 ∧
    Aligned (start []) 0x3F 2 ∧ ¬ InBounds (start []) 0x3F 2 ∧
    Aligned (start []) 0x3D 4 ∧ ¬ InBounds (start []) 0x3D 4 := by
  refine ⟨fun h => ?_, show ¬ _ ≤ _ from ?_, fun h => ?_, show ¬ _ ≤ _ from ?_, fun h => ?_, show ¬ _ ≤ _ from ?_⟩ <;>
    first | decide | exact absurd h (by decide)
theorem witness_access_misaligned : ¬ Aligned (startWith .fault []) 0x21 2 ∧ ¬ Aligned (startWith .fault []) 0x22 4 :=
  ⟨fun h => absurd (h rfl) (by decide), fun h => absurd (h rfl) (by decide)⟩
theorem witness_access_address : [0x3C#32, 0x3D#32, 0x3E#32, 0x3F#32, 0x40#32].map (fun ea => (start [(2, ea)]).reg 2 + 0#32) =
    [0x3C#32, 0x3D#32, 0x3E#32, 0x3F#32, 0x40#32] := by decide
theorem witness_store_memory : Memory.wf (start []).cfg.memSize (start []).mem := by decide
theorem witness_StoreThenLoadRoundTrip : Memory.wf 64 (start []).mem ∧ 0x3F + bytesOf .byte ≤ 64 ∧ 0x3E + bytesOf .half ≤ 64 ∧
    0x3C + bytesOf .word ≤ 64 := by decide
theorem witness_StoreToNextInstructionIsFetched : (start [(2, 0x10), (1, 0x13)]).Inv ∧
    (start [(2, 0x10), (1, 0x13)]).reg 2 + 4#32 = (start [(2, 0x10), (1, 0x13)]).pc + 4#32 ∧
    ∃ t, exec (.sw 2 1 4) (start [(2, 0x10), (1, 0x13)]) = .next t := ⟨inv_of (by decide), by decide, _, rfl⟩
theorem witness_AccessAtTopNeverWraps : State.reset.cfg.memSize ≤ 2 ^ 32 ∧ State.reset.cfg.misalignedData = .permit ∧
    State.reset.reg 0 + 0xFFFFFFFF#32 = 0xFFFFFFFF#32 := by decide
theorem witness_OnlyLoadsAndStoresTouchMemory : (∃ t, exec (.lw 1 0 0x20) (start []) = .next t) ∧
    (Instr.lw 1 0 0x20).mnemonic ∉ storeNames ∧ (Instr.jalr 1 2 0).mnemonic ∉ loadNames ++ storeNames :=
  ⟨⟨_, rfl⟩, by decide⟩

theorem witness_JalRule : ((start []).pc + 0xFFFFFFEC#32).toNat % 4 = 0 ∧ ((start []).pc + 2#32).toNat % 4 ≠ 0 := by decide
theorem witness_JalRaisesByItsImmediate : (start []).pc.toNat % 4 = 0 ∧ (Instr.jal 1 0xFFFFE).wellFormed = true ∧
    (0xFFFFE#32).toNat % 4 = 2 := by decide
theorem witness_JalrRule : ((start [(5, 0x101)]).reg 5 + 0#32).getLsbD 1 = false ∧
    ((start [(5, 0x101)]).reg 5 + 1#32).getLsbD 1 = true := by decide
theorem witness_JumpBeyondMemoryFailsAtFetch_jal : ((start []).pc + 0x30#32).toNat % 4 = 0 ∧
    ¬ InBounds (start []) ((start []).pc + 0x30#32).toNat 4 := ⟨by decide, show ¬ _ ≤ _ by decide⟩
theorem witness_JumpBeyondMemoryFailsAtFetch_jalr : ((start [(5, 0x41)]).reg 5 + 0#32).getLsbD 1 = false ∧
    ¬ InBounds (start [(5, 0x41)]) ((start [(5, 0x41)]).jalrTarget 5 0#32).toNat 4 := ⟨by decide, show ¬ _ ≤ _ by decide⟩
theorem witness_OnlyJumpsRedirect : (∃ t, exec (.lui 1 0x1000) (atPc 0xFFFFFFFC#32) = .next t) ∧
    (Instr.lui 1 0x1000).mnemonic ∉ jumpNames := ⟨⟨_, rfl⟩, by decide⟩

theorem witness_csr_registered : (start []).csrRead 0x300 = some 8#32 ∧ (start []).csrRead 0x340 = some 0#32 ∧
    CsrBank.wf (start []).cfg (start []).csrs := by decide
theorem witness_csr_unregistered : (start []).csrRead 0x301 = none ∧ (start []).csrRead 0xFFF = none := by decide
theorem witness_ZeroMaskLeavesCsrBank : (start []).Inv ∧ (start []).csrRead 0x300 = some 8#32 ∧ (start []).reg 4 = 0#32 :=
  ⟨inv_of (by decide), by decide⟩
theorem witness_OnlyCsrInstructionsTouchCsrBank : (Instr.sb 2 1 0).mnemonic ∉ csrNames ∧
    ∃ t, exec (.sb 2 1 0) (start [(2, 0x3F)]) = .next t := ⟨by decide, _, rfl⟩

/-! ### Pseudo-instructions (R110): the expansion words of spec/95_test_vectors.md, and witnesses -/

theorem test_li_expansion : (Pseudo.li 1 0x02A00113).expand.map encode = [0x02A000B7#32, 0x11308093#32] := by decide
theorem test_li_negative_lo : (Pseudo.li 1 0x00000FFF).expand = [.lui 1 0x1000, .addi 1 1 (-1)] := by decide
theorem test_ret_expansion : Pseudo.ret.expand.map encode = [0x00008067#32] := by decide

theorem witness_PseudoExpansionsDecode : (Pseudo.j 0xFFFFE).wellFormed = true ∧ (Pseudo.li 1 0x12345678).wellFormed = true := by decide
theorem witness_PseudoJumpsReachTheirTargets_offset : ((start []).pc + 0xFFFFF7F0#32).toNat % 4 = 0 := by decide
theorem witness_PseudoJumpsReachTheirTargets_register : ((start [(1, 0x40), (5, 0xFFFFFFFC)]).reg 5).toNat % 4 = 0 ∧
    ((start [(1, 0x40), (5, 0xFFFFFFFC)]).reg 1).toNat % 4 = 0 := by decide
theorem witness_PseudoCsrReads_csrr : (start []).Inv ∧ (start []).csrRead 0x300 = some 8#32 ∧ (start []).csrRead 0x301 = none :=
  ⟨inv_of (by decide), by decide⟩
theorem witness_PseudoCsrReads_counter : (start []).Inv ∧ (start []).csrRead 0xC00 = none ∧
    State.reset.Inv ∧ State.reset.csrRead 0xC02 = some 0#32 := ⟨inv_of (by decide), by decide, inv_of (by decide), by decide⟩
theorem witness_PseudoCsrWrites : (start []).Inv ∧ (start []).csrRead 0x340 = some 0#32 := ⟨inv_of (by decide), by decide⟩
theorem witness_ExcludedWordsFailWhenStepped_branch : (withWord 0x00007063#32 []).fetch = some 0x7063#32 ∧ Excluded 0x7063#32 :=
  ⟨by decide, .inl (by decide)⟩
theorem witness_ExcludedWordsFailWhenStepped_fence : (withWord 0x0FF0000F#32 []).fetch = some 0x0FF0000F#32 ∧
    Excluded 0x0FF0000F#32 := ⟨by decide, .inr (.inl (by decide))⟩
theorem witness_ExcludedWordsFailWhenStepped_ecall : (withWord 0x00000073#32 []).fetch = some 0x73#32 ∧ Excluded 0x73#32 :=
  ⟨by decide, .inr (.inr (by decide))⟩

end Sys2Proof.Tests
end

/-! SUPPORT. The family 10_state: construction, what each operation keeps of the invariant and of the configuration, and
that the CSR bank is out of reach of every instruction but the six of R36 (spec/10_state.md). -/

namespace Sys2Proof.Machine

/-! ### Construction (R31, R290) -/

section
variable {p : Params} {s : State}

/-- Construction gives a state only from an aligned INIT_PC and good parameters, and it is the state they describe. -/
theorem State.construct_next (h : State.construct p = .next s) :
    p.initPc.toNat % 4 = 0 ∧ goodParams p ∧ s = State.ofParams p := by
  unfold State.construct at h
  split at h
  · simp at h
  · next hpc =>
    split at h
    · simp at h
    · next hp => exact ⟨not_not.1 hpc, not_not.1 hp, (Host.Outcome.next.inj h).symm⟩

theorem State.construct_eq_refused (h : p.initPc.toNat % 4 ≠ 0) :
    State.construct p = .refused (.initPcMisaligned p.initPc) := if_pos h

theorem State.inv_ofParams (hpc : p.initPc.toNat % 4 = 0) (hp : goodParams p) : (State.ofParams p).Inv := by
  obtain ⟨hsize, hmem, hcsr⟩ := hp
  exact ⟨hsize, hpc, hmem, hcsr⟩

theorem State.inv_construct (h : State.construct p = .next s) : s.Inv := by
  obtain ⟨hpc, hp, rfl⟩ := State.construct_next h
  exact State.inv_ofParams hpc hp

theorem CsrBank.wf_nil (c : Config) : CsrBank.wf c [] := by simp [CsrBank.wf, Sparse.wf]

theorem goodParams_resetParams : goodParams resetParams :=
  ⟨Nat.le_refl _, Memory.wf_nil _, CsrBank.wf_nil _⟩

end

/-! ### What every instruction and every step keeps -/

section
variable {i : Instr} {s t : State}

/-- No instruction changes the configuration (R21). -/
theorem exec_keeps_cfg (h : exec i s = .next t) : t.cfg = s.cfg := by
  rcases exec_next_cases h with ⟨-, _, _, rfl⟩ | ⟨-, _, _, rfl⟩ | ⟨-, _, _, _, -, rfl⟩ | ⟨-, _, _, -, rfl⟩ |
    ⟨-, _, _, _, _, -, rfl⟩ <;> simp

/-- The registered addresses are a matter of the configuration, so what is unregistered stays so (R33). -/
theorem State.csrRead_eq_none_congr (h : t.cfg = s.cfg) (c : CsrAddr) : t.csrRead c = none ↔ s.csrRead c = none := by
  rw [State.csrRead_eq_none_iff, State.csrRead_eq_none_iff, h]

/-- Only a CSR instruction changes the CSR bank (R36). -/
theorem exec_keeps_csrs (hi : i.mnemonic ∉ csrNames) (h : exec i s = .next t) : t.csrs = s.csrs := by
  rcases exec_next_cases h with ⟨-, _, _, rfl⟩ | ⟨-, _, _, rfl⟩ | ⟨-, _, _, _, -, rfl⟩ | ⟨-, _, _, -, rfl⟩ | ⟨hcsr, -⟩
  case inr.inr.inr.inr => exact absurd hcsr hi
  all_goals simp

/-- Every instruction keeps the invariant: a result or a load writes a register and advances, a store stays within MEM_SIZE,
a jump goes to a multiple of 4, and a CSR instruction writes a registered address. -/
theorem exec_keeps_inv (hs : s.Inv) (h : exec i s = .next t) : t.Inv := by
  rcases exec_next_cases h with ⟨-, rd, v, rfl⟩ | ⟨-, rd, v, rfl⟩ | ⟨-, a, v, width, ha, rfl⟩ | ⟨-, rd, target, ht, rfl⟩ |
    ⟨-, rd, csr, v, old, hold, rfl⟩
  · exact State.inv_advance (State.inv_setReg hs rd v)
  · exact State.inv_advance (State.inv_setReg hs rd v)
  · exact State.inv_advance (State.inv_store hs ha)
  · exact State.inv_setPc (State.inv_setReg hs rd _) ht
  · have hreg : csrRegistered s.cfg csr = true := by
      by_contra hn
      simp [State.csrRead_eq_none_iff.2 (Bool.eq_false_of_not_eq_true hn)] at hold
    exact State.inv_advance (State.inv_setReg (State.inv_csrWrite hs hreg v) rd old)

theorem step_keeps_inv (hs : s.Inv) (h : step s = .next t) : t.Inv := by
  obtain ⟨_, _, -, -, hexec⟩ := step_next h
  exact exec_keeps_inv hs hexec

theorem step_keeps_cfg (h : step s = .next t) : t.cfg = s.cfg := by
  obtain ⟨_, _, -, -, hexec⟩ := step_next h
  exact exec_keeps_cfg hexec

/-- The invariant holds of every state reached from one where it holds. -/
theorem State.Reaches.inv (hs : s.Inv) (h : State.Reaches s t) : t.Inv := by
  induction h with
  | refl => exact hs
  | step _ hstep ih => exact step_keeps_inv ih hstep

end

/-! ### Another CSR bank in the same state (R36) -/

/-- The state with `b` for its CSR bank. -/
def State.withCsrs (s : State) (b : CsrBank) : State := { s with csrs := b }

section
variable (s : State) (b : CsrBank)

theorem State.setReg_withCsrs (rd : RegIdx) (v : Word) : (s.withCsrs b).setReg rd v = (s.setReg rd v).withCsrs b := by
  unfold State.setReg
  split <;> rfl

/-! What every operation but the CSR update answers is the same under another bank, the bank apart. -/

theorem State.writeResult_withCsrs (rd : RegIdx) (v : Word) :
    (s.withCsrs b).writeResult rd v = Claims.onNext (·.withCsrs b) (s.writeResult rd v) := by
  unfold State.writeResult
  rw [State.setReg_withCsrs]
  rfl

theorem State.accessFault_withCsrs (word ea : Word) (width : Width) :
    (s.withCsrs b).accessFault word ea width = s.accessFault word ea width := rfl

theorem State.load_withCsrs (word : Word) (rd : RegIdx) (ea : Word) (width : Width) (x : Extension) :
    (s.withCsrs b).load word rd ea width x = Claims.onNext (·.withCsrs b) (s.load word rd ea width x) := by
  unfold State.load
  rw [State.accessFault_withCsrs]
  cases s.accessFault word ea width with
  | some f => rfl
  | none => exact State.writeResult_withCsrs s b rd _

theorem State.store_withCsrs (word ea v : Word) (width : Width) :
    (s.withCsrs b).store word ea v width = Claims.onNext (·.withCsrs b) (s.store word ea v width) := by
  unfold State.store
  rw [State.accessFault_withCsrs]
  cases s.accessFault word ea width <;> rfl

theorem State.jump_withCsrs (word : Word) (rd : RegIdx) (target : Word) :
    (s.withCsrs b).jump word rd target = Claims.onNext (·.withCsrs b) (s.jump word rd target) := by
  rcases State.jump_cases s word rd target with ⟨h, hs⟩ | ⟨h, hs⟩
  · rw [hs, State.jump_eq_next h, State.setReg_withCsrs]
    rfl
  · rw [hs, State.jump_eq_fault h]
    rfl

/-- An instruction that is no CSR instruction does not read the bank: under another bank it answers the same, the bank
apart. -/
theorem exec_withCsrs {i : Instr} (hi : i.mnemonic ∉ csrNames) :
    exec i (s.withCsrs b) = Claims.onNext (·.withCsrs b) (exec i s) := by
  cases i
  case lb | lh | lw | lbu | lhu => exact State.load_withCsrs s b ..
  case sb | sh | sw => exact State.store_withCsrs s b ..
  case jal | jalr => exact State.jump_withCsrs s b ..
  case csrrw | csrrs | csrrc | csrrwi | csrrsi | csrrci => exact absurd (by simp [Instr.mnemonic, csrNames]) hi
  all_goals exact State.writeResult_withCsrs s b ..

end

end Sys2Proof.Machine

namespace Sys2Proof.Proofs

open Sys2Proof.Machine

/-- Settles O7: the step is the execution of the decoded instruction, and each kind of instruction keeps the invariant. -/
theorem stepKeepsInvariant : Obligations.StepKeepsInvariant :=
  fun _ _ hs h => step_keeps_inv hs h

/-- Settles O8: pc is a multiple of 4 by the invariant, which holds at construction and which every step keeps. -/
theorem pcAlignedWhereverReached : Obligations.PcAlignedWhereverReached :=
  fun _ _ _ hs hreach => (hreach.inv (State.inv_construct hs)).pc

/-- Settles O9: the configuration is in none of the fields an instruction writes. -/
theorem stepKeepsConfiguration : Obligations.StepKeepsConfiguration := by
  refine ⟨fun i s t h => ?_, fun s t h => step_keeps_cfg h⟩
  have hcfg := exec_keeps_cfg h
  exact ⟨congrArg Config.memSize hcfg, State.csrRead_eq_none_congr hcfg, hcfg⟩

/-- Settles O53: no operation but the CSR update reads the bank, and none but it writes the bank. -/
theorem onlyCsrInstructionsTouchCsrBank : Obligations.OnlyCsrInstructionsTouchCsrBank :=
  fun _ s b hi => ⟨exec_withCsrs s b hi, fun _ h => exec_keeps_csrs hi h⟩

/-- Settles O1, by the read-after-write law of the registers and the frame of a register write. -/
theorem registerWriteThenRead : Obligations.RegisterWriteThenRead :=
  fun s rd v => ⟨State.reg_setReg s rd v, State.reg_zero _, State.setReg_zero s v, State.setReg_pc s rd v,
    State.setReg_mem s rd v, State.setReg_csrs s rd v, State.setReg_cfg s rd v⟩

/-- Settles O3: the alignment of INIT_PC is the first check of construction, and a constructed state takes pc from it. -/
theorem constructionRefusesMisalignedPc : Obligations.ConstructionRefusesMisalignedPc := by
  refine fun p => ⟨State.construct_eq_refused, fun s h => ?_⟩
  obtain ⟨hpc, -, rfl⟩ := State.construct_next h
  exact ⟨rfl, hpc⟩

/-- Settles O5: the reset parameters are good and their INIT_PC is 0. -/
theorem resetSatisfiesInvariant : Obligations.ResetSatisfiesInvariant :=
  State.inv_ofParams (by decide) goodParams_resetParams

/-- Settles O6: what construction checks of the parameters is the invariant of the state they describe. -/
theorem constructionSatisfiesInvariant : Obligations.ConstructionSatisfiesInvariant :=
  fun _ _ h => State.inv_construct h

end Sys2Proof.Proofs

/-! SUPPORT. The family 20_memory: a load after a store of the same width, the fetch of a word just stored, and accesses that
reach past the end of the address space (spec/20_memory.md R52, R56, R67). -/

namespace Sys2Proof.Machine

/-! ### A load after a store of the same width (R56) -/

/-- The low `n` bits of a Word, zero-extended, are its value modulo 2^n. -/
theorem zext_extractLsb'_zero (v : Word) (n : Nat) : zext (v.extractLsb' 0 n) = BitVec.ofNat 32 (v.toNat % 2 ^ n) := by
  apply BitVec.eq_of_toNat_eq
  simp [zext, BitVec.extractLsb'_toNat]

/-- Loading what was just stored gives the low bytes stored, zero-extended. -/
theorem loadValue_storeValue {m : Memory} {size a : Nat} {width : Width} (hm : Memory.wf size m)
    (ha : a + bytesOf width ≤ size) (v : Word) :
    loadValue (storeValue m a v width) a width .unsigned = BitVec.ofNat 32 (v.toNat % 2 ^ (8 * bytesOf width)) := by
  cases width with
  | byte =>
    have hread : (m.setLow8 a v).byte a = v.extractLsb' 0 8 := (Memory.byte_setLow8 hm a a v).trans (if_pos rfl)
    exact (congrArg zext hread).trans (zext_extractLsb'_zero v 8)
  | half => exact (congrArg zext (Memory.half_setLow16 hm ha v)).trans (zext_extractLsb'_zero v 16)
  | word =>
    calc (m.setWord a v).word a
      _ = v := Memory.word_setWord hm ha v
      _ = BitVec.ofNat 32 (v.toNat % 2 ^ 32) := by rw [Nat.mod_eq_of_lt v.isLt, BitVec.ofNat_toNat, BitVec.setWidth_eq]

/-! ### Fetch (R121) -/

theorem State.fetch_eq_some {s : State} (h : s.pc.toNat + 4 ≤ s.cfg.memSize) : s.fetch = some (s.mem.word s.pc.toNat) :=
  if_neg (Nat.not_lt.2 h)

/-! ### An access that is refused (R52, R53) -/

section
variable {s : State} {word ea v : Word} {width : Width} {rd : RegIdx} {x : Extension} {f : Fault}

theorem State.accessFault_eq_outOfBounds (halign : s.cfg.misalignedData = .fault → ea.toNat % bytesOf width = 0)
    (h : s.cfg.memSize < ea.toNat + bytesOf width) :
    s.accessFault word ea width = some (.execMemOutOfBounds s.pc word ea width) := by
  have hm : misaligned s.cfg ea width = false := by simpa [misaligned] using halign
  simp [State.accessFault, hm, outOfBounds, h]

/-- The sum of R52 does not wrap (D4): two or four bytes at the last address reach past every MEM_SIZE. -/
theorem State.accessFault_at_top (hsize : s.cfg.memSize ≤ 2 ^ 32) (hmode : s.cfg.misalignedData = .permit)
    (hwidth : width ≠ .byte) (hea : ea = 0xFFFFFFFF#32) :
    s.accessFault word ea width = some (.execMemOutOfBounds s.pc word 0xFFFFFFFF#32 width) := by
  subst hea
  refine State.accessFault_eq_outOfBounds (by simp [hmode]) ?_
  have htwo : 2 ≤ bytesOf width := by cases width <;> simp [bytesOf] at hwidth ⊢
  have htop : (0xFFFFFFFF#32).toNat = 2 ^ 32 - 1 := rfl
  omega

theorem State.load_eq_fault (h : s.accessFault word ea width = some f) : s.load word rd ea width x = .fault f := by
  simp [State.load, h]

theorem State.store_eq_fault (h : s.accessFault word ea width = some f) : s.store word ea v width = .fault f := by
  simp [State.store, h]

end

end Sys2Proof.Machine

namespace Sys2Proof.Proofs

open Sys2Proof.Machine

/-- Settles O40, by the read-after-write law of each width. -/
theorem storeThenLoadRoundTrip : Obligations.StoreThenLoadRoundTrip :=
  fun _ _ _ v _ hm ha => loadValue_storeValue hm ha v

/-- Settles O41: a store that completes is in bounds, so the fetch at that address is, and it reads the word stored. -/
theorem storeToNextInstructionIsFetched : Obligations.StoreToNextInstructionIsFetched := by
  intro s t rs1 rs2 imm hs hea h
  obtain ⟨haccess, rfl⟩ := State.store_next (s := s) (ea := s.reg rs1 + imm) (v := s.reg rs2) (width := .word) h
  rw [hea] at haccess ⊢
  have hin : (s.pc + 4#32).toNat + 4 ≤ s.cfg.memSize := (State.accessFault_eq_none_iff.1 haccess).2
  rw [State.fetch_eq_some hin]
  exact congrArg some (Memory.word_setWord hs.memory hin (s.reg rs2))

/-- Settles O42: the access of each of the five instructions is refused at the last address. -/
theorem accessAtTopNeverWraps : Obligations.AccessAtTopNeverWraps := by
  intro rd rs1 rs2 imm s hsize hmode hea c hc
  simp only [List.mem_cons, List.not_mem_nil, or_false] at hc
  rcases hc with rfl | rfl | rfl | rfl | rfl
  case inr.inr.inr.inl | inr.inr.inr.inr =>
    exact State.store_eq_fault (State.accessFault_at_top hsize hmode (by decide) hea)
  all_goals exact State.load_eq_fault (State.accessFault_at_top hsize hmode (by decide) hea)

end Sys2Proof.Proofs

/-! SUPPORT. The family 30_encoding: encode and decode are inverse, the opcode table is the decoder's contract, which words it
refuses and how (spec/30_encoding.md R80 to R104), and what the pseudo-instructions of R110 amount to. -/

namespace Sys2Proof

/-! ### The decoder, by major opcode (R99) -/

section
variable {w : Word}

theorem decode_eq_jalr (h : opcodeOf w = 0b1100111#7) : decode w = decodeJalr w := by simp [decode, h]
theorem decode_eq_load (h : opcodeOf w = 0b0000011#7) : decode w = decodeLoad w := by simp [decode, h]
theorem decode_eq_store (h : opcodeOf w = 0b0100011#7) : decode w = decodeStore w := by simp [decode, h]
theorem decode_eq_opImm (h : opcodeOf w = 0b0010011#7) : decode w = decodeOpImm w := by simp [decode, h]
theorem decode_eq_op (h : opcodeOf w = 0b0110011#7) : decode w = decodeOp w := by simp [decode, h]
theorem decode_eq_system (h : opcodeOf w = 0b1110011#7) : decode w = decodeSystem w := by simp [decode, h]
theorem decode_eq_branch (h : opcodeOf w = 0b1100011#7) : decode w = .error (decodeBranch w) := by simp [decode, h]
theorem decode_eq_miscMem (h : opcodeOf w = 0b0001111#7) : decode w = .error (decodeMiscMem w) := by simp [decode, h]

end

/-! ### Decoding an encoded instruction -/

theorem decode_encode {i : Instr} (h : i.wellFormed = true) : decode (encode i) = .ok i := by
  cases i
  case lui | auipc => simp [encode, decode, append_high20 (of_decide_eq_true h)]
  case jal rd imm =>
    have himm : BitVec.extractLsb' 1 20 (BitVec.extractLsb' 0 21 imm) = imm.extractLsb' 1 20 :=
      BitVec.extractLsb'_extractLsb'_of_le (by omega)
    simp [encode, decode, himm, sext_low21 (of_decide_eq_true h)]
  case jalr => simp [encode, decode_eq_jalr, decodeJalr, sext_low12 (of_decide_eq_true h)]
  case lb | lh | lw | lbu | lhu => simp [encode, decode_eq_load, decodeLoad, sext_low12 (of_decide_eq_true h)]
  case sb | sh | sw => simp [encode, decode_eq_store, decodeStore, sext_low12 (of_decide_eq_true h)]
  case addi | slti | sltiu | xori | ori | andi =>
    simp [encode, decode_eq_opImm, decodeOpImm, sext_low12 (of_decide_eq_true h)]
  case slli => simp [encode, decode_eq_opImm, decodeOpImm, decodeShiftLeftImm]
  case srli | srai => simp [encode, decode_eq_opImm, decodeOpImm, decodeShiftRightImm]
  case add | sll | slt | sltu | xor | srl | or | and => simp [encode, decode_eq_op, decodeOp, decodeOpBase]
  case sub | sra => simp [encode, decode_eq_op, decodeOp, decodeOpAlt]
  all_goals simp [encode, decode_eq_system, decodeSystem]

/-! ### Encoding a decoded instruction: a word is its format's fields, with the opcode and functs the decoder found -/

section
variable {w : Word} {i : Instr} {op f7 : BitVec 7} {f3 : BitVec 3}

theorem rFormat_of_fields (hop : opcodeOf w = op) (h3 : funct3Of w = f3) (h7 : funct7Of w = f7) :
    rFormat f7 (rs2Of w) (rs1Of w) f3 (rdOf w) op = w := by
  rw [← hop, ← h3, ← h7, rFormat_fields]

theorem iFormat_of_fields (hop : opcodeOf w = op) (h3 : funct3Of w = f3) :
    iFormat (csrOf w) (rs1Of w) f3 (rdOf w) op = w := by
  rw [← hop, ← h3, iFormat_fields]

theorem iFormat_of_immI (hop : opcodeOf w = op) (h3 : funct3Of w = f3) :
    iFormat (low12 (immIOf w)) (rs1Of w) f3 (rdOf w) op = w := by
  rw [low12_immIOf, iFormat_of_fields hop h3]

theorem sFormat_of_fields (hop : opcodeOf w = op) (h3 : funct3Of w = f3) :
    sFormat (low12 (immSOf w)) (rs2Of w) (rs1Of w) f3 op = w := by
  rw [← hop, ← h3, sFormat_fields]

theorem uFormat_of_fields (hop : opcodeOf w = op) : uFormat ((immUOf w).extractLsb' 12 20) (rdOf w) op = w := by
  rw [← hop, uFormat_fields]

theorem jFormat_of_fields (hop : opcodeOf w = op) : jFormat ((immJOf w).extractLsb' 0 21) (rdOf w) op = w := by
  rw [← hop, jFormat_fields]

/-! The immediates read from a word lie in their ranges (R89, R90, R92, R93). -/

theorem fitsImm12_immIOf (w : Word) : fitsImm12 (immIOf w) := fitsImm12_sext _
theorem fitsImm12_immSOf (w : Word) : fitsImm12 (immSOf w) := fitsImm12_sext _
theorem fitsImmU_immUOf (w : Word) : fitsImmU (immUOf w) := fitsImmU_append _

theorem fitsImmJ_immJOf (w : Word) : fitsImmJ (immJOf w) := by
  rw [← jFormat_fields w, immJOf_jFormat]
  exact fitsImmJ_sext _

/-! What each part of the decoder answers is the instruction of the word. -/

theorem decodeJalr_ok (hop : opcodeOf w = 0b1100111#7) (h : decodeJalr w = .ok i) :
    encode i = w ∧ i.wellFormed = true := by
  unfold decodeJalr at h
  split at h <;> cases h
  exact ⟨iFormat_of_immI hop ‹_›, decide_eq_true (fitsImm12_immIOf w)⟩

theorem decodeLoad_ok (hop : opcodeOf w = 0b0000011#7) (h : decodeLoad w = .ok i) :
    encode i = w ∧ i.wellFormed = true := by
  unfold decodeLoad at h
  split at h <;> cases h
  all_goals exact ⟨iFormat_of_immI hop ‹_›, decide_eq_true (fitsImm12_immIOf w)⟩

theorem decodeStore_ok (hop : opcodeOf w = 0b0100011#7) (h : decodeStore w = .ok i) :
    encode i = w ∧ i.wellFormed = true := by
  unfold decodeStore at h
  split at h <;> cases h
  all_goals exact ⟨sFormat_of_fields hop ‹_›, decide_eq_true (fitsImm12_immSOf w)⟩

theorem decodeShiftLeftImm_ok (hop : opcodeOf w = 0b0010011#7) (h3 : funct3Of w = 0b001#3)
    (h : decodeShiftLeftImm w = .ok i) : encode i = w ∧ i.wellFormed = true := by
  unfold decodeShiftLeftImm at h
  split at h <;> cases h
  exact ⟨rFormat_of_fields hop h3 ‹_›, rfl⟩

theorem decodeShiftRightImm_ok (hop : opcodeOf w = 0b0010011#7) (h3 : funct3Of w = 0b101#3)
    (h : decodeShiftRightImm w = .ok i) : encode i = w ∧ i.wellFormed = true := by
  unfold decodeShiftRightImm at h
  split at h <;> cases h
  all_goals exact ⟨rFormat_of_fields hop h3 ‹_›, rfl⟩

theorem decodeOpImm_ok (hop : opcodeOf w = 0b0010011#7) (h : decodeOpImm w = .ok i) :
    encode i = w ∧ i.wellFormed = true := by
  unfold decodeOpImm at h
  split at h
  case h_7 h3 => exact decodeShiftLeftImm_ok hop h3 h
  case h_8 h3 => exact decodeShiftRightImm_ok hop h3 h
  case h_9 => cases h
  all_goals
    cases h
    exact ⟨iFormat_of_immI hop ‹_›, decide_eq_true (fitsImm12_immIOf w)⟩

theorem decodeOpBase_ok (hop : opcodeOf w = 0b0110011#7) (h7 : funct7Of w = 0b0000000#7)
    (h : decodeOpBase w = .ok i) : encode i = w ∧ i.wellFormed = true := by
  unfold decodeOpBase at h
  split at h <;> cases h
  all_goals exact ⟨rFormat_of_fields hop ‹_› h7, rfl⟩

theorem decodeOpAlt_ok (hop : opcodeOf w = 0b0110011#7) (h7 : funct7Of w = 0b0100000#7)
    (h : decodeOpAlt w = .ok i) : encode i = w ∧ i.wellFormed = true := by
  unfold decodeOpAlt at h
  split at h <;> cases h
  all_goals exact ⟨rFormat_of_fields hop ‹_› h7, rfl⟩

theorem decodeOp_ok (hop : opcodeOf w = 0b0110011#7) (h : decodeOp w = .ok i) :
    encode i = w ∧ i.wellFormed = true := by
  unfold decodeOp at h
  split at h
  · next h7 => exact decodeOpBase_ok hop h7 h
  · next h7 => exact decodeOpAlt_ok hop h7 h
  · cases h

theorem decodeSystem_ok (hop : opcodeOf w = 0b1110011#7) (h : decodeSystem w = .ok i) :
    encode i = w ∧ i.wellFormed = true := by
  unfold decodeSystem at h
  split at h <;> cases h
  all_goals exact ⟨iFormat_of_fields hop ‹_›, rfl⟩

theorem encode_decode (h : decode w = .ok i) : encode i = w ∧ i.wellFormed = true := by
  unfold decode at h
  split at h
  · cases h
    exact ⟨uFormat_of_fields ‹_›, decide_eq_true (fitsImmU_immUOf w)⟩
  · cases h
    exact ⟨uFormat_of_fields ‹_›, decide_eq_true (fitsImmU_immUOf w)⟩
  · cases h
    exact ⟨jFormat_of_fields ‹_›, decide_eq_true (fitsImmJ_immJOf w)⟩
  · exact decodeJalr_ok ‹_› h
  · exact decodeLoad_ok ‹_› h
  · exact decodeStore_ok ‹_› h
  · exact decodeOpImm_ok ‹_› h
  · exact decodeOp_ok ‹_› h
  · exact decodeSystem_ok ‹_› h
  all_goals cases h

/-- The decoder is the encoder's inverse: a word decodes to the one well-formed instruction that it encodes, if there is one. -/
theorem decode_eq_ok_iff : decode w = .ok i ↔ encode i = w ∧ i.wellFormed = true := by
  refine ⟨encode_decode, ?_⟩
  rintro ⟨rfl, h⟩
  exact decode_encode h

end

end Sys2Proof

namespace Sys2Proof.Laws

open Sys2Proof.Claims

/-! ### What a row's mask says of the fields of a matching word -/

section
variable {w m p : Word}

theorem opcodeOf_of_match (h : w &&& m = p) (hm : opcodeOf m = BitVec.allOnes 7) : opcodeOf w = opcodeOf p := by
  rw [← h, opcodeOf_and hm]

theorem funct3Of_of_match (h : w &&& m = p) (hm : funct3Of m = BitVec.allOnes 3) : funct3Of w = funct3Of p := by
  rw [← h, funct3Of_and hm]

theorem funct7Of_of_match (h : w &&& m = p) (hm : funct7Of m = BitVec.allOnes 7) : funct7Of w = funct7Of p := by
  rw [← h, funct7Of_and hm]

/-! ### Rows, by format: a matching word decodes to the instruction of its fields -/

variable {op f7 : BitVec 7} {f3 : BitVec 3}

theorem encodes_uType {f : RegIdx → Word → Instr} (hp : uFormat 0#20 0#5 op = p)
    (hf : ∀ rd imm, encode (f rd imm) = uFormat (imm.extractLsb' 12 20) rd op ∧
      (fitsImmU imm → (f rd imm).wellFormed = true)) :
    Encodes 0x0000007F#32 p (fun w => f (rdF w) (immUF w)) := by
  intro w h
  have hop : opcodeOf w = op := by rw [opcodeOf_of_match h (by decide), ← hp, opcodeOf_uFormat]
  obtain ⟨henc, hwf⟩ := hf (rdOf w) (immUOf w)
  exact decode_eq_ok_iff.2 ⟨henc.trans (uFormat_of_fields hop), hwf (fitsImmU_immUOf w)⟩

theorem encodes_iType {f : RegIdx → RegIdx → Word → Instr} (hp : iFormat 0#12 0#5 f3 0#5 op = p)
    (hf : ∀ rd rs1 imm, encode (f rd rs1 imm) = iFormat (low12 imm) rs1 f3 rd op ∧
      (fitsImm12 imm → (f rd rs1 imm).wellFormed = true)) :
    Encodes 0x0000707F#32 p (fun w => f (rdF w) (rs1F w) (immIF w)) := by
  intro w h
  have hop : opcodeOf w = op := by rw [opcodeOf_of_match h (by decide), ← hp, opcodeOf_iFormat]
  have h3 : funct3Of w = f3 := by rw [funct3Of_of_match h (by decide), ← hp, funct3Of_iFormat]
  obtain ⟨henc, hwf⟩ := hf (rdOf w) (rs1Of w) (immIOf w)
  exact decode_eq_ok_iff.2 ⟨henc.trans (iFormat_of_immI hop h3), hwf (fitsImm12_immIOf w)⟩

theorem encodes_csrType {f : RegIdx → BitVec 5 → CsrAddr → Instr} (hp : iFormat 0#12 0#5 f3 0#5 op = p)
    (hf : ∀ rd src csr, encode (f rd src csr) = iFormat csr src f3 rd op ∧ (f rd src csr).wellFormed = true) :
    Encodes 0x0000707F#32 p (fun w => f (rdF w) (rs1F w) (csrF w)) := by
  intro w h
  have hop : opcodeOf w = op := by rw [opcodeOf_of_match h (by decide), ← hp, opcodeOf_iFormat]
  have h3 : funct3Of w = f3 := by rw [funct3Of_of_match h (by decide), ← hp, funct3Of_iFormat]
  obtain ⟨henc, hwf⟩ := hf (rdOf w) (rs1Of w) (csrOf w)
  exact decode_eq_ok_iff.2 ⟨henc.trans (iFormat_of_fields hop h3), hwf⟩

theorem encodes_sType {f : RegIdx → RegIdx → Word → Instr} (hp : sFormat 0#12 0#5 0#5 f3 op = p)
    (hf : ∀ rs1 rs2 imm, encode (f rs1 rs2 imm) = sFormat (low12 imm) rs2 rs1 f3 op ∧
      (fitsImm12 imm → (f rs1 rs2 imm).wellFormed = true)) :
    Encodes 0x0000707F#32 p (fun w => f (rs1F w) (rs2F w) (immSF w)) := by
  intro w h
  have hop : opcodeOf w = op := by rw [opcodeOf_of_match h (by decide), ← hp, opcodeOf_sFormat]
  have h3 : funct3Of w = f3 := by rw [funct3Of_of_match h (by decide), ← hp, funct3Of_sFormat]
  obtain ⟨henc, hwf⟩ := hf (rs1Of w) (rs2Of w) (immSOf w)
  exact decode_eq_ok_iff.2 ⟨henc.trans (sFormat_of_fields hop h3), hwf (fitsImm12_immSOf w)⟩

theorem encodes_rType {f : RegIdx → RegIdx → BitVec 5 → Instr} (hp : rFormat f7 0#5 0#5 f3 0#5 op = p)
    (hf : ∀ rd rs1 rs2, encode (f rd rs1 rs2) = rFormat f7 rs2 rs1 f3 rd op ∧ (f rd rs1 rs2).wellFormed = true) :
    Encodes 0xFE00707F#32 p (fun w => f (rdF w) (rs1F w) (rs2F w)) := by
  intro w h
  have hop : opcodeOf w = op := by rw [opcodeOf_of_match h (by decide), ← hp, opcodeOf_rFormat]
  have h3 : funct3Of w = f3 := by rw [funct3Of_of_match h (by decide), ← hp, funct3Of_rFormat]
  have h7 : funct7Of w = f7 := by rw [funct7Of_of_match h (by decide), ← hp, funct7Of_rFormat]
  obtain ⟨henc, hwf⟩ := hf (rdOf w) (rs1Of w) (rs2Of w)
  exact decode_eq_ok_iff.2 ⟨henc.trans (rFormat_of_fields hop h3 h7), hwf⟩

end

/-! ### Rows, one by one (R96, R108) -/

theorem encodes_lui : Encodes 0x0000007F#32 0x00000037#32 (fun w => .lui (rdF w) (immUF w)) :=
  encodes_uType (by decide) fun _ _ => ⟨rfl, decide_eq_true⟩

theorem encodes_auipc : Encodes 0x0000007F#32 0x00000017#32 (fun w => .auipc (rdF w) (immUF w)) :=
  encodes_uType (by decide) fun _ _ => ⟨rfl, decide_eq_true⟩

theorem encodes_jal : Encodes 0x0000007F#32 0x0000006F#32 (fun w => .jal (rdF w) (immJF w)) := fun w h =>
  decode_eq_ok_iff.2 ⟨jFormat_of_fields (opcodeOf_of_match h (by decide)), decide_eq_true (fitsImmJ_immJOf w)⟩

theorem encodes_jalr : Encodes 0x0000707F#32 0x00000067#32 (fun w => .jalr (rdF w) (rs1F w) (immIF w)) :=
  encodes_iType (by decide) fun _ _ _ => ⟨rfl, decide_eq_true⟩

theorem encodes_lb : Encodes 0x0000707F#32 0x00000003#32 (fun w => .lb (rdF w) (rs1F w) (immIF w)) :=
  encodes_iType (by decide) fun _ _ _ => ⟨rfl, decide_eq_true⟩

theorem encodes_lh : Encodes 0x0000707F#32 0x00001003#32 (fun w => .lh (rdF w) (rs1F w) (immIF w)) :=
  encodes_iType (by decide) fun _ _ _ => ⟨rfl, decide_eq_true⟩

theorem encodes_lw : Encodes 0x0000707F#32 0x00002003#32 (fun w => .lw (rdF w) (rs1F w) (immIF w)) :=
  encodes_iType (by decide) fun _ _ _ => ⟨rfl, decide_eq_true⟩

theorem encodes_lbu : Encodes 0x0000707F#32 0x00004003#32 (fun w => .lbu (rdF w) (rs1F w) (immIF w)) :=
  encodes_iType (by decide) fun _ _ _ => ⟨rfl, decide_eq_true⟩

theorem encodes_lhu : Encodes 0x0000707F#32 0x00005003#32 (fun w => .lhu (rdF w) (rs1F w) (immIF w)) :=
  encodes_iType (by decide) fun _ _ _ => ⟨rfl, decide_eq_true⟩

theorem encodes_sb : Encodes 0x0000707F#32 0x00000023#32 (fun w => .sb (rs1F w) (rs2F w) (immSF w)) :=
  encodes_sType (by decide) fun _ _ _ => ⟨rfl, decide_eq_true⟩

theorem encodes_sh : Encodes 0x0000707F#32 0x00001023#32 (fun w => .sh (rs1F w) (rs2F w) (immSF w)) :=
  encodes_sType (by decide) fun _ _ _ => ⟨rfl, decide_eq_true⟩

theorem encodes_sw : Encodes 0x0000707F#32 0x00002023#32 (fun w => .sw (rs1F w) (rs2F w) (immSF w)) :=
  encodes_sType (by decide) fun _ _ _ => ⟨rfl, decide_eq_true⟩

theorem encodes_addi : Encodes 0x0000707F#32 0x00000013#32 (fun w => .addi (rdF w) (rs1F w) (immIF w)) :=
  encodes_iType (by decide) fun _ _ _ => ⟨rfl, decide_eq_true⟩

theorem encodes_slti : Encodes 0x0000707F#32 0x00002013#32 (fun w => .slti (rdF w) (rs1F w) (immIF w)) :=
  encodes_iType (by decide) fun _ _ _ => ⟨rfl, decide_eq_true⟩

theorem encodes_sltiu : Encodes 0x0000707F#32 0x00003013#32 (fun w => .sltiu (rdF w) (rs1F w) (immIF w)) :=
  encodes_iType (by decide) fun _ _ _ => ⟨rfl, decide_eq_true⟩

theorem encodes_xori : Encodes 0x0000707F#32 0x00004013#32 (fun w => .xori (rdF w) (rs1F w) (immIF w)) :=
  encodes_iType (by decide) fun _ _ _ => ⟨rfl, decide_eq_true⟩

theorem encodes_ori : Encodes 0x0000707F#32 0x00006013#32 (fun w => .ori (rdF w) (rs1F w) (immIF w)) :=
  encodes_iType (by decide) fun _ _ _ => ⟨rfl, decide_eq_true⟩

theorem encodes_andi : Encodes 0x0000707F#32 0x00007013#32 (fun w => .andi (rdF w) (rs1F w) (immIF w)) :=
  encodes_iType (by decide) fun _ _ _ => ⟨rfl, decide_eq_true⟩

theorem encodes_slli : Encodes 0xFE00707F#32 0x00001013#32 (fun w => .slli (rdF w) (rs1F w) (rs2F w)) :=
  encodes_rType (by decide) fun _ _ _ => ⟨rfl, rfl⟩

theorem encodes_srli : Encodes 0xFE00707F#32 0x00005013#32 (fun w => .srli (rdF w) (rs1F w) (rs2F w)) :=
  encodes_rType (by decide) fun _ _ _ => ⟨rfl, rfl⟩

theorem encodes_srai : Encodes 0xFE00707F#32 0x40005013#32 (fun w => .srai (rdF w) (rs1F w) (rs2F w)) :=
  encodes_rType (by decide) fun _ _ _ => ⟨rfl, rfl⟩

theorem encodes_add : Encodes 0xFE00707F#32 0x00000033#32 (fun w => .add (rdF w) (rs1F w) (rs2F w)) :=
  encodes_rType (by decide) fun _ _ _ => ⟨rfl, rfl⟩

theorem encodes_sub : Encodes 0xFE00707F#32 0x40000033#32 (fun w => .sub (rdF w) (rs1F w) (rs2F w)) :=
  encodes_rType (by decide) fun _ _ _ => ⟨rfl, rfl⟩

theorem encodes_sll : Encodes 0xFE00707F#32 0x00001033#32 (fun w => .sll (rdF w) (rs1F w) (rs2F w)) :=
  encodes_rType (by decide) fun _ _ _ => ⟨rfl, rfl⟩

theorem encodes_slt : Encodes 0xFE00707F#32 0x00002033#32 (fun w => .slt (rdF w) (rs1F w) (rs2F w)) :=
  encodes_rType (by decide) fun _ _ _ => ⟨rfl, rfl⟩

theorem encodes_sltu : Encodes 0xFE00707F#32 0x00003033#32 (fun w => .sltu (rdF w) (rs1F w) (rs2F w)) :=
  encodes_rType (by decide) fun _ _ _ => ⟨rfl, rfl⟩

theorem encodes_xor : Encodes 0xFE00707F#32 0x00004033#32 (fun w => .xor (rdF w) (rs1F w) (rs2F w)) :=
  encodes_rType (by decide) fun _ _ _ => ⟨rfl, rfl⟩

theorem encodes_srl : Encodes 0xFE00707F#32 0x00005033#32 (fun w => .srl (rdF w) (rs1F w) (rs2F w)) :=
  encodes_rType (by decide) fun _ _ _ => ⟨rfl, rfl⟩

theorem encodes_sra : Encodes 0xFE00707F#32 0x40005033#32 (fun w => .sra (rdF w) (rs1F w) (rs2F w)) :=
  encodes_rType (by decide) fun _ _ _ => ⟨rfl, rfl⟩

theorem encodes_or : Encodes 0xFE00707F#32 0x00006033#32 (fun w => .or (rdF w) (rs1F w) (rs2F w)) :=
  encodes_rType (by decide) fun _ _ _ => ⟨rfl, rfl⟩

theorem encodes_and : Encodes 0xFE00707F#32 0x00007033#32 (fun w => .and (rdF w) (rs1F w) (rs2F w)) :=
  encodes_rType (by decide) fun _ _ _ => ⟨rfl, rfl⟩

theorem encodes_csrrw : Encodes 0x0000707F#32 0x00001073#32 (fun w => .csrrw (rdF w) (rs1F w) (csrF w)) :=
  encodes_csrType (by decide) fun _ _ _ => ⟨rfl, rfl⟩

theorem encodes_csrrs : Encodes 0x0000707F#32 0x00002073#32 (fun w => .csrrs (rdF w) (rs1F w) (csrF w)) :=
  encodes_csrType (by decide) fun _ _ _ => ⟨rfl, rfl⟩

theorem encodes_csrrc : Encodes 0x0000707F#32 0x00003073#32 (fun w => .csrrc (rdF w) (rs1F w) (csrF w)) :=
  encodes_csrType (by decide) fun _ _ _ => ⟨rfl, rfl⟩

theorem encodes_csrrwi : Encodes 0x0000707F#32 0x00005073#32 (fun w => .csrrwi (rdF w) (rs1F w) (csrF w)) :=
  encodes_csrType (by decide) fun _ _ _ => ⟨rfl, rfl⟩

theorem encodes_csrrsi : Encodes 0x0000707F#32 0x00006073#32 (fun w => .csrrsi (rdF w) (rs1F w) (csrF w)) :=
  encodes_csrType (by decide) fun _ _ _ => ⟨rfl, rfl⟩

theorem encodes_csrrci : Encodes 0x0000707F#32 0x00007073#32 (fun w => .csrrci (rdF w) (rs1F w) (csrF w)) :=
  encodes_csrType (by decide) fun _ _ _ => ⟨rfl, rfl⟩

/-! ### The table as a whole (R96) -/

/-- Every word that matches the row decodes to an instruction of the row's mnemonic. -/
def RowDecodes (row : OpcodeRow) : Prop :=
  ∀ w, w &&& row.mask = row.pattern → ∃ i, decode w = .ok i ∧ i.mnemonic = row.mnemonic

theorem RowDecodes.of_encodes {row : OpcodeRow} {f : Word → Instr} (h : Encodes row.mask row.pattern f)
    (hname : ∀ w, (f w).mnemonic = row.mnemonic) : RowDecodes row :=
  fun w hw => ⟨f w, h w hw, hname w⟩

theorem rowDecodes_opcodeTable : ∀ row ∈ opcodeTable, RowDecodes row := by
  refine List.forall_iff_forall_mem.1 ?_
  exact ⟨.of_encodes encodes_lui fun _ => rfl, .of_encodes encodes_auipc fun _ => rfl,
    .of_encodes encodes_jal fun _ => rfl, .of_encodes encodes_jalr fun _ => rfl, .of_encodes encodes_lb fun _ => rfl,
    .of_encodes encodes_lh fun _ => rfl, .of_encodes encodes_lw fun _ => rfl, .of_encodes encodes_lbu fun _ => rfl,
    .of_encodes encodes_lhu fun _ => rfl, .of_encodes encodes_sb fun _ => rfl, .of_encodes encodes_sh fun _ => rfl,
    .of_encodes encodes_sw fun _ => rfl, .of_encodes encodes_addi fun _ => rfl, .of_encodes encodes_slti fun _ => rfl,
    .of_encodes encodes_sltiu fun _ => rfl, .of_encodes encodes_xori fun _ => rfl,
    .of_encodes encodes_ori fun _ => rfl, .of_encodes encodes_andi fun _ => rfl,
    .of_encodes encodes_slli fun _ => rfl, .of_encodes encodes_srli fun _ => rfl,
    .of_encodes encodes_srai fun _ => rfl, .of_encodes encodes_add fun _ => rfl, .of_encodes encodes_sub fun _ => rfl,
    .of_encodes encodes_sll fun _ => rfl, .of_encodes encodes_slt fun _ => rfl, .of_encodes encodes_sltu fun _ => rfl,
    .of_encodes encodes_xor fun _ => rfl, .of_encodes encodes_srl fun _ => rfl, .of_encodes encodes_sra fun _ => rfl,
    .of_encodes encodes_or fun _ => rfl, .of_encodes encodes_and fun _ => rfl, .of_encodes encodes_csrrw fun _ => rfl,
    .of_encodes encodes_csrrs fun _ => rfl, .of_encodes encodes_csrrc fun _ => rfl,
    .of_encodes encodes_csrrwi fun _ => rfl, .of_encodes encodes_csrrsi fun _ => rfl,
    .of_encodes encodes_csrrci fun _ => rfl⟩

theorem encodeRow (i : Instr) : EncodeRow.Statement i := by
  cases i
  exacts [EncodeRow.lui .., EncodeRow.auipc .., EncodeRow.jal .., EncodeRow.jalr .., EncodeRow.lb .., EncodeRow.lh ..,
    EncodeRow.lw .., EncodeRow.lbu .., EncodeRow.lhu .., EncodeRow.sb .., EncodeRow.sh .., EncodeRow.sw ..,
    EncodeRow.addi .., EncodeRow.slti .., EncodeRow.sltiu .., EncodeRow.xori .., EncodeRow.ori .., EncodeRow.andi ..,
    EncodeRow.slli .., EncodeRow.srli .., EncodeRow.srai .., EncodeRow.add .., EncodeRow.sub .., EncodeRow.sll ..,
    EncodeRow.slt .., EncodeRow.sltu .., EncodeRow.xor .., EncodeRow.srl .., EncodeRow.sra .., EncodeRow.or ..,
    EncodeRow.and .., EncodeRow.csrrw .., EncodeRow.csrrs .., EncodeRow.csrrc .., EncodeRow.csrrwi ..,
    EncodeRow.csrrsi .., EncodeRow.csrrci ..]

/-- A word matches a row exactly when it decodes. -/
theorem hasRow_iff {w : Word} : HasRow w ↔ ∃ i, decode w = .ok i := by
  constructor
  · rintro ⟨row, hrow, hw⟩
    obtain ⟨i, hi, -⟩ := rowDecodes_opcodeTable row hrow w hw
    exact ⟨i, hi⟩
  · rintro ⟨i, hi⟩
    obtain ⟨row, hrow, -, hw⟩ := encodeRow i
    exact ⟨row, hrow, (encode_decode hi).1 ▸ hw⟩

/-- Two rows whose patterns agree wherever both masks keep the bit are one row. -/
theorem row_eq_of_patterns_agree : ∀ a ∈ opcodeTable, ∀ b ∈ opcodeTable,
    a.pattern &&& b.mask = b.pattern &&& a.mask → a = b := by decide

/-! ### Words that match no row (R97, R98) -/

section
variable {w : Word}

theorem decodeBranch_eq_notImplemented_iff : decodeBranch w = .notImplemented ↔
    funct3Of w ∈ [0b000#3, 0b001#3, 0b100#3, 0b101#3, 0b110#3, 0b111#3] := by
  unfold decodeBranch
  generalize funct3Of w = f3
  revert f3
  decide

theorem decodeMiscMem_eq_notImplemented_iff :
    decodeMiscMem w = .notImplemented ↔ funct3Of w ∈ [0b000#3, 0b001#3] := by
  unfold decodeMiscMem
  generalize funct3Of w = f3
  revert f3
  decide

theorem decodeSystem_eq_notImplemented_iff : decodeSystem w = .error .notImplemented ↔ funct3Of w = 0b000#3 := by
  constructor
  · intro h
    unfold decodeSystem at h
    split at h
    case h_7 h3 => exact h3
    all_goals cases h
  · intro h
    simp [decodeSystem, h]

/-! No other opcode has an encoding excluded by name. -/

theorem decodeJalr_ne_notImplemented : decodeJalr w ≠ .error .notImplemented := by
  unfold decodeJalr
  split <;> simp

theorem decodeLoad_ne_notImplemented : decodeLoad w ≠ .error .notImplemented := by
  unfold decodeLoad
  split <;> simp

theorem decodeStore_ne_notImplemented : decodeStore w ≠ .error .notImplemented := by
  unfold decodeStore
  split <;> simp

theorem decodeOpImm_ne_notImplemented : decodeOpImm w ≠ .error .notImplemented := by
  unfold decodeOpImm
  split
  case h_7 => unfold decodeShiftLeftImm; split <;> simp
  case h_8 => unfold decodeShiftRightImm; split <;> simp
  all_goals simp

theorem decodeOp_ne_notImplemented : decodeOp w ≠ .error .notImplemented := by
  unfold decodeOp
  split
  · unfold decodeOpBase; split <;> simp
  · unfold decodeOpAlt; split <;> simp
  · simp

theorem decode_eq_notImplemented_iff : decode w = .error .notImplemented ↔ Excluded w := by
  constructor
  · intro h
    unfold decode at h
    split at h
    case h_4 => exact absurd h decodeJalr_ne_notImplemented
    case h_5 => exact absurd h decodeLoad_ne_notImplemented
    case h_6 => exact absurd h decodeStore_ne_notImplemented
    case h_7 => exact absurd h decodeOpImm_ne_notImplemented
    case h_8 => exact absurd h decodeOp_ne_notImplemented
    case h_9 hop => exact .inr (.inr ⟨hop, decodeSystem_eq_notImplemented_iff.1 h⟩)
    case h_10 hop => exact .inl ⟨hop, decodeBranch_eq_notImplemented_iff.1 (Except.error.inj h)⟩
    case h_11 hop => exact .inr (.inl ⟨hop, decodeMiscMem_eq_notImplemented_iff.1 (Except.error.inj h)⟩)
    all_goals cases h
  · rintro (⟨hop, h3⟩ | ⟨hop, h3⟩ | ⟨hop, h3⟩)
    · rw [decode_eq_branch hop, decodeBranch_eq_notImplemented_iff.2 h3]
    · rw [decode_eq_miscMem hop, decodeMiscMem_eq_notImplemented_iff.2 h3]
    · rw [decode_eq_system hop, decodeSystem_eq_notImplemented_iff.2 h3]

theorem decode_eq_malformed_iff : decode w = .error .malformed ↔ ¬ HasRow w ∧ ¬ Excluded w := by
  rw [hasRow_iff, ← decode_eq_notImplemented_iff]
  cases hd : decode w with
  | ok i => simp
  | error e => cases e <;> simp

/-- The low two bits of every opcode the decoder knows are 11 (R80). -/
theorem decode_eq_malformed_of_low2 (h : w.extractLsb' 0 2 ≠ 0b11#2) : decode w = .error .malformed := by
  have hlow : (opcodeOf w).extractLsb' 0 2 = w.extractLsb' 0 2 := BitVec.extractLsb'_extractLsb'_of_le (by omega)
  have hop (op : BitVec 7) (hop : op.extractLsb' 0 2 = 0b11#2) : opcodeOf w ≠ op := by
    rintro rfl
    exact h (hlow ▸ hop)
  unfold decode
  split
  case h_12 => rfl
  all_goals exact absurd ‹opcodeOf w = _› (hop _ (by decide))

/-- The M-extension words are OP words of a funct7 the decoder does not know (R144). -/
theorem decode_eq_malformed_of_mExtension (h : w &&& 0xFE00007F#32 = 0x02000033#32) :
    decode w = .error .malformed := by
  have hop : opcodeOf w = 0b0110011#7 := opcodeOf_of_match h (by decide)
  have h7 : funct7Of w = 0b0000001#7 := funct7Of_of_match h (by decide)
  rw [decode_eq_op hop]
  simp [decodeOp, h7]

end

end Sys2Proof.Laws

namespace Sys2Proof.Machine

open Sys2Proof.Claims

/-! ### No operation refuses -/

section
variable {s : State} {r : Refusal}

theorem State.writeResult_ne_refused {rd : RegIdx} {v : Word} : s.writeResult rd v ≠ .refused r := by
  simp [State.writeResult]

theorem State.load_ne_refused {word ea : Word} {rd : RegIdx} {width : Width} {x : Extension} :
    s.load word rd ea width x ≠ .refused r := by
  unfold State.load
  split
  · simp
  · exact State.writeResult_ne_refused

theorem State.store_ne_refused {word ea v : Word} {width : Width} : s.store word ea v width ≠ .refused r := by
  unfold State.store
  split <;> simp

theorem State.jump_ne_refused {word target : Word} {rd : RegIdx} : s.jump word rd target ≠ .refused r := by
  unfold State.jump
  split <;> simp

theorem State.csrUpdate_ne_refused {word : Word} {rd : RegIdx} {csr : CsrAddr} {new : Word → Word} :
    s.csrUpdate word rd csr new ≠ .refused r := by
  unfold State.csrUpdate
  split
  · simp
  · exact State.writeResult_ne_refused

theorem exec_ne_refused (i : Instr) : exec i s ≠ .refused r := by
  cases i
  case lb | lh | lw | lbu | lhu => exact State.load_ne_refused
  case sb | sh | sw => exact State.store_ne_refused
  case jal | jalr => exact State.jump_ne_refused
  case csrrw | csrrs | csrrc | csrrwi | csrrsi | csrrci => exact State.csrUpdate_ne_refused
  all_goals exact State.writeResult_ne_refused

theorem step_ne_refused : step s ≠ .refused r := by
  unfold step
  split
  · simp
  · split
    · simp
    · exact exec_ne_refused _

end

/-! ### A step whose decode fails (R122) -/

section
variable {s : State}

theorem step_eq_decodeFault {w : Word} {e : DecodeError} (hfetch : s.fetch = some w) (hd : decode w = .error e) :
    step s = .fault (decodeFault s.pc w e) := by
  simp [step, hfetch, hd]

/-- An error changes nothing (R127). -/
theorem State.after_of_fault {f : Fault} (h : step s = .fault f) : s.after = s := by
  simp [State.after, h]

end

end Sys2Proof.Machine

namespace Sys2Proof.Claims

open Sys2Proof.Machine

/-! ### What a register result and a jump amount to, in the terms of the statements -/

/-- `t` is `s` with `v` in `rd` and pc at `next`: what Yields and Achieves say of the state they reach. -/
def Becomes (s t : State) (rd : RegIdx) (v next : Word) : Prop :=
  RegsAfter s t rd v ∧ t.pc = next ∧ MemSame s t ∧ CsrsSame s t ∧ t.cfg = s.cfg

section
variable {s t u : State} {i j : Instr} {p : Pseudo} {rd q : RegIdx} {v w next mid : Word}

theorem yields_iff : Yields i s rd v next ↔ ∃ t, exec i s = .next t ∧ Becomes s t rd v next := Iff.rfl

theorem achieves_iff : Achieves p s rd v next ↔ ∃ t, execAll p.expand s = .next t ∧ Becomes s t rd v next := Iff.rfl

/-- The value said to be written matters only where the register is not x0. -/
theorem RegsAfter.congr (h : RegsAfter s t rd v) (hv : rd ≠ 0#5 → v = w) : RegsAfter s t rd w := by
  intro r
  rw [h r]
  by_cases hr : r = rd ∧ r ≠ 0#5
  · rw [if_pos hr, if_pos hr, hv (hr.1 ▸ hr.2)]
  · rw [if_neg hr, if_neg hr]

theorem RegsAfter.reg_eq (h : RegsAfter s t rd v) (hrd : rd ≠ 0#5) : t.reg rd = v :=
  (h rd).trans (if_pos ⟨rfl, hrd⟩)

/-- A write to x0 leaves every register as it was. -/
theorem RegsAfter.reg_of_zero (h : RegsAfter s t 0#5 v) (r : RegIdx) : t.reg r = s.reg r :=
  (h r).trans (if_neg fun hr => hr.2 hr.1)

/-- The second of two writes to a register is the one that stays. -/
theorem RegsAfter.trans (h : RegsAfter s t rd v) (h' : RegsAfter t u rd w) : RegsAfter s u rd w := by
  intro r
  rw [h' r, h r]
  split <;> rfl

theorem RegsAfter.trans_zero (h : RegsAfter s t rd v) (h' : RegsAfter t u 0#5 w) : RegsAfter s u rd v :=
  fun r => (h'.reg_of_zero r).trans (h r)

theorem Becomes.regs (h : Becomes s t rd v next) : RegsAfter s t rd v := h.1

theorem Becomes.pc_eq (h : Becomes s t rd v next) : t.pc = next := h.2.1

theorem Becomes.congr (h : Becomes s t rd v next) (hv : rd ≠ 0#5 → v = w) : Becomes s t rd w next := by
  obtain ⟨hregs, hframe⟩ := h
  exact ⟨hregs.congr hv, hframe⟩

/-- Two changes one after the other are one change, of the registers that `hregs` says. -/
theorem Becomes.comp (h : Becomes s t q v mid) (h' : Becomes t u rd w next) {r : RegIdx} {x : Word}
    (hregs : RegsAfter s u r x) : Becomes s u r x next := by
  obtain ⟨-, -, hmem, hcsrs, hcfg⟩ := h
  obtain ⟨-, hpc, hmem', hcsrs', hcfg'⟩ := h'
  exact ⟨hregs, hpc, fun a => (hmem' a).trans (hmem a), fun c => (hcsrs' c).trans (hcsrs c), hcfg'.trans hcfg⟩

/-- After a write to `rd`, an instruction that writes `rd` again: its value stays. -/
theorem Becomes.andThen (h : Becomes s t rd v mid) (hj : Yields j t rd w next) :
    ∃ u, exec j t = .next u ∧ Becomes s u rd w next := by
  obtain ⟨u, hexec, hu⟩ := yields_iff.1 hj
  exact ⟨u, hexec, h.comp hu (h.regs.trans hu.regs)⟩

/-- After a write to `rd`, an instruction that writes x0: the first value stays. -/
theorem Becomes.andThen_zero (h : Becomes s t rd v mid) (hj : Yields j t 0#5 w next) :
    ∃ u, exec j t = .next u ∧ Becomes s u rd v next := by
  obtain ⟨u, hexec, hu⟩ := yields_iff.1 hj
  exact ⟨u, hexec, h.comp hu (h.regs.trans_zero hu.regs)⟩

theorem becomes_setReg_setPc (s : State) (rd : RegIdx) (v next : Word) :
    Becomes s ((s.setReg rd v).setPc next) rd v next :=
  ⟨State.reg_setReg s rd v, rfl, fun a => State.setReg_byte s rd v a, fun c => State.setReg_csrRead s rd v c,
    State.setReg_cfg s rd v⟩

theorem Yields.congr (h : Yields i s rd v next) (hv : rd ≠ 0#5 → v = w) : Yields i s rd w next := by
  obtain ⟨t, hexec, ht⟩ := yields_iff.1 h
  exact ⟨t, hexec, ht.congr hv⟩

/-- An instruction that ends in writeResult completes, whatever the state (R124). -/
theorem yields_of_writeResult (h : exec i s = s.writeResult rd v) : Yields i s rd v (s.pc + 4#32) := by
  have ht := becomes_setReg_setPc s rd v (s.pc + 4#32)
  rw [← State.setReg_pc s rd v] at ht ⊢
  exact ⟨_, h, ht⟩

/-- A jump to a multiple of 4 completes (R201). -/
theorem yields_of_jump {word target : Word} (h : exec i s = s.jump word rd target) (ht : target.toNat % 4 = 0) :
    Yields i s rd (s.pc + 4#32) target :=
  ⟨_, h.trans (State.jump_eq_next ht), becomes_setReg_setPc s rd _ target⟩

/-- A CSR instruction gives the CSR's old value and changes the CSR, or raises (R230). -/
theorem updates_of_csrUpdate {csr : CsrAddr} {new : Word → Word} (h : exec i s = s.csrUpdate (encode i) rd csr new) :
    Updates i s rd csr new := by
  refine ⟨fun old hold => ?_, fun hnone => h.trans (State.csrUpdate_eq_fault hnone)⟩
  refine ⟨_, h.trans (State.csrUpdate_eq_next hold), fun r => State.reg_setReg _ rd old r, ?_, ?_, ?_, fun hb c => ?_⟩
  · simp
  · intro a
    simp
  · simp
  · have hreg : csrRegistered s.cfg csr = true := by
      rw [← Bool.not_eq_false, ← State.csrRead_eq_none_iff, hold]
      simp
    simp [State.csrRead_csrWrite hb, hreg]

/-! ### Expansions of one and of two instructions -/

theorem Achieves.of_single (hp : p.expand = [i]) (h : Yields i s rd v next) : Achieves p s rd v next := by
  rw [achieves_iff, hp, execAll_single]
  exact h

theorem Achieves.of_pair (hp : p.expand = [i, j]) (hi : Yields i s q w mid)
    (hj : ∀ t, Becomes s t q w mid → ∃ u, exec j t = .next u ∧ Becomes s u rd v next) : Achieves p s rd v next := by
  obtain ⟨t, hexec, ht⟩ := yields_iff.1 hi
  rw [achieves_iff, hp, execAll_cons hexec, execAll_single]
  exact hj t ht

theorem Amounts.of_single {f : State → Word} (hp : p.expand = [i]) (h : ∀ s, exec i s = s.writeResult rd (f s)) :
    Amounts p rd f := by
  intro s
  have hlen : p.expand.length = 1 := by rw [hp]; rfl
  rw [hlen]
  exact Achieves.of_single hp (yields_of_writeResult (h s))

/-- An instruction that puts the high part in `rd`, and the ADDI of the low part to it. -/
theorem Amounts.of_addi_pair {f g : State → Word} {lo : Word} (hp : p.expand = [i, .addi rd rd lo])
    (h : ∀ s, exec i s = s.writeResult rd (f s)) (hsum : ∀ s, f s + lo = g s) : Amounts p rd g := by
  intro s
  have hlen : p.expand.length = 2 := by rw [hp]; rfl
  have hnext : s.pc + BitVec.ofNat 32 (4 * 2) = s.pc + 4#32 + 4#32 := (BitVec.add_assoc s.pc 4#32 4#32).symm
  rw [hlen, hnext]
  refine Achieves.of_pair hp (yields_of_writeResult (h s)) fun t ht => ?_
  rw [← ht.pc_eq]
  refine ht.andThen ((yields_of_writeResult (v := t.reg rd + lo) rfl).congr fun hrd => ?_)
  rw [ht.regs.reg_eq hrd, hsum]

end

/-! ### Expansions of one CSR instruction -/

section
variable {s : State} {p : Pseudo} {i : Instr} {csr : CsrAddr} {new : Word → Word}

/-- An expansion that is one CSR instruction with x0 for its destination changes the CSR and no register. -/
theorem execAll_of_updates_zero {old v : Word} (hp : p.expand = [i]) (hupd : Updates i s 0#5 csr new) (hs : s.Inv)
    (hold : s.csrRead csr = some old) (hnew : new old = v) :
    ∃ t, execAll p.expand s = .next t ∧ (∀ r, t.reg r = s.reg r) ∧ t.pc = s.pc + 4#32 ∧ MemSame s t ∧ t.cfg = s.cfg ∧
      ∀ a, t.csrRead a = if a = csr then some v else s.csrRead a := by
  obtain ⟨t, hexec, hregs, hpc, hmem, hcfg, hcsrs⟩ := hupd.1 old hold
  rw [hp, execAll_single, ← hnew]
  exact ⟨t, hexec, hregs.reg_of_zero, hpc, hmem, hcfg, hcsrs hs.csrs⟩

/-- A CSR instruction that writes back what the CSR held changes nothing but `rd` and pc. -/
theorem yields_of_updates_same {rd : RegIdx} {old : Word} (hupd : Updates i s rd csr new) (hs : s.Inv)
    (hold : s.csrRead csr = some old) (hnew : new old = old) : Yields i s rd old (s.pc + 4#32) := by
  obtain ⟨t, hexec, hregs, hpc, hmem, hcfg, hcsrs⟩ := hupd.1 old hold
  refine ⟨t, hexec, hregs, hpc, hmem, fun c => ?_, hcfg⟩
  rw [hcsrs hs.csrs c, hnew]
  by_cases hc : c = csr
  · rw [if_pos hc, hc, hold]
  · rw [if_neg hc]

end

end Sys2Proof.Claims

namespace Sys2Proof.Machine

open Sys2Proof.Claims

/-! ### The values the register expansions leave (R110) -/

section
variable (x : Word)

theorem lessUnsigned_one : lessUnsigned x 1#32 = if x = 0#32 then 1#32 else 0#32 := by
  have hiff : x.toNat < (1#32).toNat ↔ x = 0#32 := by
    rw [← BitVec.toNat_inj]
    simp
  simp only [lessUnsigned, hiff]

theorem lessUnsigned_zero_left : lessUnsigned 0#32 x = if x = 0#32 then 0#32 else 1#32 := by
  have hiff : (0#32).toNat < x.toNat ↔ ¬ x = 0#32 := by
    rw [← BitVec.toNat_inj]
    simp [Nat.pos_iff_ne_zero]
  simp only [lessUnsigned, hiff, ite_not]

theorem zero_sub_eq_ofInt : 0#32 - x = BitVec.ofInt 32 (-x.toInt) := by
  rw [BitVec.ofInt_neg, BitVec.ofInt_toInt, BitVec.zero_sub]

/-- A multiple of 4 has its bit 0 clear already (R203). -/
theorem and_clear_bit0 {x : Word} (h : x.toNat % 4 = 0) : x &&& 0xFFFFFFFE#32 = x := by
  have hlow : x.getLsbD 0 = false := by
    rw [BitVec.getLsbD, Nat.testBit_zero, decide_eq_false_iff_not]
    omega
  have hmask : 0xFFFFFFFE#32 = ~~~ 1#32 := by decide
  apply BitVec.eq_of_getLsbD_eq
  intro k hk
  rw [hmask, BitVec.getLsbD_and, BitVec.getLsbD_not, BitVec.getLsbD_one]
  cases k with
  | zero => rw [hlow, Bool.false_and]
  | succ k => simp only [hk, Nat.succ_ne_zero, decide_true, decide_false, Bool.and_false, Bool.not_false, Bool.and_true]

/-- The immediate of the CSR instructions, as the number it is. -/
theorem zext_zimm (zimm : BitVec 5) : zext zimm = BitVec.ofNat 32 zimm.toNat := by
  apply BitVec.eq_of_toNat_eq
  simp [zext]

end

/-! ### The instructions of the expansions -/

section
variable (s : State) (rd rs1 : RegIdx)

theorem yields_jal {imm : Word} (h : (s.pc + imm).toNat % 4 = 0) :
    Yields (.jal rd imm) s rd (s.pc + 4#32) (s.pc + imm) := yields_of_jump rfl h

theorem yields_jalr {imm : Word} (h : (s.reg rs1 + imm).toNat % 4 = 0) :
    Yields (.jalr rd rs1 imm) s rd (s.pc + 4#32) (s.reg rs1 + imm) := by
  have htarget : s.jalrTarget rs1 imm = s.reg rs1 + imm := and_clear_bit0 h
  rw [← htarget] at h ⊢
  exact yields_of_jump rfl h

/-- JALR with offset 0 goes to the register. -/
theorem yields_jalr_zero (h : (s.reg rs1).toNat % 4 = 0) :
    Yields (.jalr rd rs1 0#32) s rd (s.pc + 4#32) (s.reg rs1) := by
  have hsum : s.reg rs1 + 0#32 = s.reg rs1 := BitVec.add_zero _
  have hjump := yields_jalr s rd rs1 (imm := 0#32) (hsum.symm ▸ h)
  rwa [hsum] at hjump

theorem yields_auipc (imm : Word) : Yields (.auipc rd imm) s rd (s.pc + imm) (s.pc + 4#32) := yields_of_writeResult rfl

/-- JALR with lo, after the AUIPC that left hi in its base register, goes to the offset from the AUIPC (R110, `call`). -/
theorem yields_jalr_after_auipc {s t : State} {rs1 : RegIdx} {offset : Word} (hrs1 : rs1 ≠ 0#5)
    (ht : Becomes s t rs1 (s.pc + hiPart offset) (s.pc + 4#32)) (h : (s.pc + offset).toNat % 4 = 0) :
    Yields (.jalr rd rs1 (loPart offset)) t rd (s.pc + 8#32) (s.pc + offset) := by
  have htarget : t.reg rs1 + loPart offset = s.pc + offset := by
    rw [ht.regs.reg_eq hrs1, BitVec.add_assoc, hiPart_add_loPart]
  have hlink : t.pc + 4#32 = s.pc + 8#32 := by
    rw [ht.pc_eq, BitVec.add_assoc]
    rfl
  have hjump := yields_jalr t rd rs1 (htarget ▸ h)
  rwa [htarget, hlink] at hjump

end

/-! ### The expansions -/

theorem Pseudo.expand_li_of_fits {rd : RegIdx} {imm : Word} (h : fitsImm12 imm) :
    (Pseudo.li rd imm).expand = [.addi rd 0#5 imm] := if_pos h

theorem Pseudo.expand_li_of_not_fits {rd : RegIdx} {imm : Word} (h : ¬ fitsImm12 imm) :
    (Pseudo.li rd imm).expand = [.lui rd (hiPart imm), .addi rd rd (loPart imm)] := if_neg h

/-- Every instruction of an expansion has its immediates in range: they are constants, or hi and lo of R110, or the offset
that Pseudo.wellFormed bounds. -/
theorem Pseudo.wellFormed_of_mem_expand {p : Pseudo} (hp : p.wellFormed = true) {i : Instr} (hi : i ∈ p.expand) :
    i.wellFormed = true := by
  have hhi (imm : Word) : decide (fitsImmU (hiPart imm)) = true := decide_eq_true (fitsImmU_hiPart imm)
  have hlo (imm : Word) : decide (fitsImm12 (loPart imm)) = true := decide_eq_true (fitsImm12_loPart imm)
  cases p
  case li rd imm =>
    by_cases hfits : fitsImm12 imm
    · rw [Pseudo.expand_li_of_fits hfits] at hi
      obtain rfl := List.mem_singleton.1 hi
      exact decide_eq_true hfits
    · rw [Pseudo.expand_li_of_not_fits hfits] at hi
      obtain rfl | hi := List.mem_cons.1 hi
      · exact hhi imm
      · obtain rfl := List.mem_singleton.1 hi
        exact hlo imm
  case call offset | tail offset | la _ offset =>
    obtain rfl | hi := List.mem_cons.1 hi
    · exact hhi offset
    · obtain rfl := List.mem_singleton.1 hi
      exact hlo offset
  case j | jal =>
    obtain rfl := List.mem_singleton.1 hi
    exact hp
  all_goals
    obtain rfl := List.mem_singleton.1 hi
    rfl

end Sys2Proof.Machine

namespace Sys2Proof.Proofs

open Sys2Proof.Machine Sys2Proof.Claims Sys2Proof.Laws

/-- Settles O21: each field reader finds in the word of each format the field the encoder put there. -/
theorem decodeOfEncode : Obligations.DecodeOfEncode := fun _ h => decode_encode h

/-- Settles O22: a word is its format's fields, of which the decoder checked opcode and functs and kept the rest. -/
theorem encodeOfDecode : Obligations.EncodeOfDecode := fun _ _ h => encode_decode h

/-- Settles O18: a word that matches two rows makes their patterns agree on the bits both masks keep, and no two rows do. -/
theorem noTwoRowsMatch : Obligations.NoTwoRowsMatch := by
  intro w a ha b hb hwa hwb
  refine row_eq_of_patterns_agree a ha b hb ?_
  rw [← hwa, ← hwb, BitVec.and_assoc, BitVec.and_assoc, BitVec.and_comm a.mask]

/-- Settles O17: each row decodes, and what decodes is an encoded instruction, which matches the row of its mnemonic. -/
theorem decodeFollowsOpcodeTable : Obligations.DecodeFollowsOpcodeTable := by
  refine ⟨fun w row hrow => rowDecodes_opcodeTable row hrow w, fun w hw => ?_⟩
  cases hd : decode w with
  | ok i => exact absurd (hasRow_iff.2 ⟨i, hd⟩) hw
  | error e => exact ⟨e, rfl⟩

/-- Settles O19: BRANCH, MISC-MEM and SYSTEM by funct3, and no other opcode. -/
theorem excludedEncodingsNotImplemented : Obligations.ExcludedEncodingsNotImplemented :=
  fun _ => decode_eq_notImplemented_iff

/-- Settles O20: malformed is what is left when a word neither decodes nor is excluded by name. -/
theorem otherWordsMalformed : Obligations.OtherWordsMalformed :=
  ⟨fun _ => decode_eq_malformed_iff, fun _ => decode_eq_malformed_of_mExtension, fun _ => decode_eq_malformed_of_low2⟩

/-- Settles O15: each operation an instruction ends in answers a next state or a fault. -/
theorem noStepIsRefused : Obligations.NoStepIsRefused :=
  ⟨fun i _ _ => exec_ne_refused i, fun _ _ => step_ne_refused⟩

/-- Settles O59: an excluded word fails to decode as notImplemented, which ends the step. -/
theorem excludedWordsFailWhenStepped : Obligations.ExcludedWordsFailWhenStepped := by
  intro s w hfetch hw
  have hstep := step_eq_decodeFault hfetch (decode_eq_notImplemented_iff.2 hw)
  exact ⟨hstep, State.after_of_fault hstep⟩

/-- Settles O54: the instructions of an expansion are well-formed, and a well-formed instruction's word decodes to it. -/
theorem pseudoExpansionsDecode : Obligations.PseudoExpansionsDecode := by
  intro p hp i hi
  have hwf := Pseudo.wellFormed_of_mem_expand hp hi
  exact ⟨hwf, decode_encode hwf⟩

/-- Settles O55: each expansion is one ALU instruction, or the high part and the ADDI of the low part. -/
theorem pseudoRegisterResults : Obligations.PseudoRegisterResults := by
  refine ⟨.of_single rfl fun _ => rfl, fun rd imm => ?_, fun rd offset => ?_, fun rd rs => ⟨?_, ?_, ?_, ?_, ?_, ?_, ?_⟩⟩
  · by_cases hfits : fitsImm12 imm
    · exact .of_single (Pseudo.expand_li_of_fits hfits) fun s => congrArg (s.writeResult rd) (BitVec.zero_add imm)
    · exact .of_addi_pair (Pseudo.expand_li_of_not_fits hfits) (fun _ => rfl) fun _ => hiPart_add_loPart imm
  · refine .of_addi_pair rfl (fun _ => rfl) fun s => ?_
    rw [BitVec.add_assoc, hiPart_add_loPart]
  · exact .of_single rfl fun s => congrArg (s.writeResult rd) (BitVec.add_zero _)
  · exact .of_single rfl fun s => congrArg (s.writeResult rd) BitVec.xor_allOnes
  · exact .of_single rfl fun s => congrArg (s.writeResult rd) (zero_sub_eq_ofInt _)
  · exact .of_single rfl fun s => congrArg (s.writeResult rd) (lessUnsigned_one _)
  · exact .of_single rfl fun s => congrArg (s.writeResult rd) (lessUnsigned_zero_left _)
  · exact .of_single rfl fun _ => rfl
  · exact .of_single rfl fun _ => rfl

/-- Settles O56: the offset is JAL's immediate, or AUIPC's and JALR's immediates add up to it. -/
theorem pseudoJumpsReachTheirTargets : Obligations.PseudoJumpsReachTheirTargets := by
  refine ⟨fun s offset h => ⟨?_, ?_, ?_, ?_⟩, fun s rs h => ⟨?_, ?_⟩, fun s h => ?_⟩
  · exact .of_single rfl ((yields_jal s 0#5 h).congr (absurd rfl))
  · exact .of_single rfl (yields_jal s 1#5 h)
  · refine .of_pair rfl (yields_auipc s 1#5 (hiPart offset)) fun t ht => ?_
    exact ht.andThen (yields_jalr_after_auipc 1#5 (by decide) ht h)
  · refine .of_pair rfl (yields_auipc s 6#5 (hiPart offset)) fun t ht => ?_
    exact ht.andThen_zero (yields_jalr_after_auipc 0#5 (by decide) ht h)
  · exact .of_single rfl ((yields_jalr_zero s 0#5 rs h).congr (absurd rfl))
  · exact .of_single rfl (yields_jalr_zero s 1#5 rs h)
  · exact .of_single rfl ((yields_jalr_zero s 0#5 1#5 h).congr (absurd rfl))

/-- Settles O57: a CSRRS of x0 writes back what it read. -/
theorem pseudoCsrReads : Obligations.PseudoCsrReads := by
  intro s rd csr p hs hp
  have hexp : p.expand = [.csrrs rd 0#5 csr] := by
    simp only [List.mem_cons, List.not_mem_nil, or_false, Prod.mk.injEq] at hp
    obtain rfl | ⟨rfl, rfl⟩ | ⟨rfl, rfl⟩ | ⟨rfl, rfl⟩ := hp <;> rfl
  have hupd : Updates (.csrrs rd 0#5 csr) s rd csr (fun t => t ||| s.reg 0#5) := updates_of_csrUpdate rfl
  refine ⟨fun v hv => ?_, fun hnone => ?_⟩
  · exact .of_single hexp (yields_of_updates_same hupd hs hv BitVec.or_zero)
  · rw [hexp, execAll_single]
    exact hupd.2 hnone

/-- Settles O58: each expansion is one CSR instruction that writes x0. -/
theorem pseudoCsrWrites : Obligations.PseudoCsrWrites := by
  intro s csr rs zimm old hs hold c hc
  rw [← zext_zimm] at hc
  simp only [List.mem_cons, List.not_mem_nil, or_false] at hc
  obtain rfl | rfl | rfl | rfl | rfl | rfl := hc <;>
    exact execAll_of_updates_zero rfl (updates_of_csrUpdate rfl) hs hold rfl

end Sys2Proof.Proofs

/-! SUPPORT. The family 40_execution_cycle: what a step answers by the stage it ends in, that a word placed for the fetch is
the one fetched, and where a non-jump leaves pc (spec/40_execution_cycle.md R121 to R126). -/

namespace Sys2Proof.Machine

open Sys2Proof.Claims

/-! ### Fetch (R121) -/

section
variable {s : State}

theorem State.fetch_eq_none (h : s.cfg.memSize < s.pc.toNat + 4) : s.fetch = none := if_pos h

/-- The fetched word by its bytes, the lowest address lowest (R57). -/
theorem State.fetch_eq_bytes (h : InBounds s s.pc.toNat 4) : s.fetch =
    some (s.byte (s.pc.toNat + 3) ++ s.byte (s.pc.toNat + 2) ++ s.byte (s.pc.toNat + 1) ++ s.byte s.pc.toNat) :=
  State.fetch_eq_some h

/-- The memory of `withFetchWord` reaches past the word, and its word at pc is the one stored (log entry 14). -/
theorem State.fetch_withFetchWord (hm : Memory.wf s.cfg.memSize s.mem) (nbits w : Nat) :
    (s.withFetchWord nbits w).fetch = some (tableWord nbits w) := by
  have hin : s.pc.toNat + 4 ≤ max s.cfg.memSize (s.pc.toNat + 4) := Nat.le_max_right _ _
  have hm' : Memory.wf (max s.cfg.memSize (s.pc.toNat + 4)) s.mem := Memory.wf_mono hm (Nat.le_max_left _ _)
  calc (s.withFetchWord nbits w).fetch
    _ = some ((s.mem.setWord s.pc.toNat (tableWord nbits w)).word s.pc.toNat) :=
      State.fetch_eq_some (s := s.withFetchWord nbits w) hin
    _ = some (tableWord nbits w) := congrArg some (Memory.word_setWord hm' hin _)

/-! ### A step that fails at the fetch, and one that goes on to execute (R121, R123) -/

theorem step_eq_fetchFault (h : s.fetch = none) : step s = .fault (.fetchOutOfBounds s.pc) := by
  simp [step, h]

theorem step_eq_exec {w : Word} {i : Instr} (hfetch : s.fetch = some w) (hd : decode w = .ok i) : step s = exec i s := by
  simp [step, hfetch, hd]

/-! ### Advance (R124) -/

/-- The next pc of R124, as a natural number taken modulo 2^32. -/
theorem State.advance_pc_eq_ofNat : s.advance.pc = BitVec.ofNat 32 (s.pc.toNat + 4) := by
  rw [State.advance_pc, BitVec.ofNat_add, BitVec.ofNat_toNat, BitVec.setWidth_eq]

/-- A non-jump ends with the advance of a state whose pc is still the old one. -/
theorem exec_eq_advance {i : Instr} {t : State} (hi : i.mnemonic ∉ jumpNames) (h : exec i s = .next t) :
    ∃ u : State, u.pc = s.pc ∧ t = u.advance := by
  rcases exec_next_cases h with ⟨-, rd, v, rfl⟩ | ⟨-, rd, v, rfl⟩ | ⟨-, a, v, width, -, rfl⟩ | ⟨hjump, -⟩ |
    ⟨-, rd, csr, v, old, -, rfl⟩
  · exact ⟨_, State.setReg_pc s rd v, rfl⟩
  · exact ⟨_, State.setReg_pc s rd v, rfl⟩
  · exact ⟨{ s with mem := storeValue s.mem a v width }, rfl, rfl⟩
  · exact absurd hjump hi
  · exact ⟨_, State.setReg_pc (s.csrWrite csr v) rd old, rfl⟩

end

end Sys2Proof.Machine

namespace Sys2Proof.Proofs

open Sys2Proof.Machine

/-- Settles O16: the placed word is fetched, and what is fetched and decodes is executed. -/
theorem placedWordRunsNext : Obligations.PlacedWordRunsNext :=
  fun _ nbits w _ hs hd => step_eq_exec (State.fetch_withFetchWord hs.memory nbits w) hd

/-- Settles O48: every instruction but a jump ends with the advance of pc. -/
theorem onlyJumpsRedirect : Obligations.OnlyJumpsRedirect := by
  intro i s t h hi
  obtain ⟨u, hpc, rfl⟩ := exec_eq_advance hi h
  rw [State.advance_pc_eq_ofNat, hpc]

/-- Settles O10: the word fetched is the four bytes at pc. -/
theorem stepRunsDecodedInstruction : Obligations.StepRunsDecodedInstruction :=
  fun _ _ hin hd => step_eq_exec (State.fetch_eq_bytes hin) hd

/-- Settles O11: the bound of R121 is the one thing a fetch checks. -/
theorem fetchReadsWordAtPc : Obligations.FetchReadsWordAtPc := by
  refine fun s => ⟨State.fetch_eq_bytes, fun hout => ?_⟩
  have hstep := step_eq_fetchFault (State.fetch_eq_none (Nat.lt_of_not_le hout))
  exact ⟨hstep, State.after_of_fault hstep⟩

/-- Settles O12: a word that does not decode is returned as the error of its subkind. -/
theorem decodeFailureEndsStep : Obligations.DecodeFailureEndsStep := by
  refine fun s w hfetch => ⟨fun hd => ?_, fun hd => ?_⟩
  all_goals
    have hstep := step_eq_decodeFault hfetch hd
    exact ⟨hstep, State.after_of_fault hstep⟩

end Sys2Proof.Proofs

/-! SUPPORT. The family 41_alu: the results of the ALU instructions in arithmetic, and that memory is out of reach of every
instruction but the loads and the stores (spec/41_alu.md R142 to R163). -/

namespace Sys2Proof.Machine

open Sys2Proof.Claims

/-! ### Differences and shifts as arithmetic modulo 2^32 (R142, R146, R150 to R152) -/

section
variable (a b : Word) (n : BitVec 5)

theorem sub_eq_ofInt : a - b = BitVec.ofInt 32 (a.toNat - b.toNat) := by
  rw [Int.sub_eq_add_neg, BitVec.ofInt_add, BitVec.ofInt_neg, BitVec.sub_eq_add_neg]
  simp only [BitVec.ofInt_natCast, BitVec.ofNat_toNat, BitVec.setWidth_eq]

theorem shiftAmount_toNat : (shiftAmount b).toNat = b.toNat % 32 := by
  rw [shiftAmount, BitVec.extractLsb'_toNat, Nat.shiftRight_zero]

theorem shiftLeft_eq_ofNat : shiftLeft a n = BitVec.ofNat 32 (a.toNat * 2 ^ n.toNat) := by
  rw [← Nat.shiftLeft_eq]
  rfl

theorem shiftRightLogical_eq_ofNat : shiftRightLogical a n = BitVec.ofNat 32 (a.toNat / 2 ^ n.toNat) := by
  rw [shiftRightLogical, ← Nat.shiftRight_eq_div_pow, ← BitVec.toNat_ushiftRight, BitVec.ofNat_toNat, BitVec.setWidth_eq]

theorem shiftRightArith_eq_ofInt : shiftRightArith a n = BitVec.ofInt 32 (a.toInt / 2 ^ n.toNat) := by
  have hdiv : a.toInt >>> n.toNat = a.toInt / 2 ^ n.toNat := by
    rw [Int.shiftRight_eq_div_pow, Nat.cast_pow, Nat.cast_ofNat]
  rw [← hdiv]
  rfl

end

/-! ### Another memory in the same state (R144) -/

/-- The state with `m` for its memory. -/
def State.withMem (s : State) (m : Memory) : State := { s with mem := m }

section
variable (s : State) (m : Memory)

theorem State.setReg_withMem (rd : RegIdx) (v : Word) : (s.withMem m).setReg rd v = (s.setReg rd v).withMem m := by
  unfold State.setReg
  split <;> rfl

/-! What every operation but the load and the store answers is the same under another memory, the memory apart. -/

theorem State.writeResult_withMem (rd : RegIdx) (v : Word) :
    (s.withMem m).writeResult rd v = onNext (·.withMem m) (s.writeResult rd v) := by
  unfold State.writeResult
  rw [State.setReg_withMem]
  rfl

theorem State.jump_withMem (word : Word) (rd : RegIdx) (target : Word) :
    (s.withMem m).jump word rd target = onNext (·.withMem m) (s.jump word rd target) := by
  rcases State.jump_cases s word rd target with ⟨h, hs⟩ | ⟨h, hs⟩
  · rw [hs, State.jump_eq_next h, State.setReg_withMem]
    rfl
  · rw [hs, State.jump_eq_fault h]
    rfl

theorem State.csrUpdate_withMem (word : Word) (rd : RegIdx) (csr : CsrAddr) (new : Word → Word) :
    (s.withMem m).csrUpdate word rd csr new = onNext (·.withMem m) (s.csrUpdate word rd csr new) := by
  have hread : (s.withMem m).csrRead csr = s.csrRead csr := rfl
  unfold State.csrUpdate
  rw [hread]
  cases s.csrRead csr with
  | none => rfl
  | some t => exact State.writeResult_withMem (s.csrWrite csr (new t)) m rd t

/-- An instruction that is neither load nor store does not read memory: under another memory it answers the same, the
memory apart. -/
theorem exec_withMem {i : Instr} (hi : i.mnemonic ∉ loadNames ++ storeNames) :
    exec i (s.withMem m) = onNext (·.withMem m) (exec i s) := by
  cases i
  case lb | lh | lw | lbu | lhu => exact absurd (by simp [Instr.mnemonic, loadNames]) hi
  case sb | sh | sw => exact absurd (by simp [Instr.mnemonic, storeNames]) hi
  case jal | jalr => exact State.jump_withMem s m ..
  case csrrw | csrrs | csrrc | csrrwi | csrrsi | csrrci => exact State.csrUpdate_withMem s m ..
  all_goals exact State.writeResult_withMem s m ..

/-- Only a store changes memory (R181). -/
theorem exec_keeps_mem {i : Instr} {s t : State} (hi : i.mnemonic ∉ storeNames) (h : exec i s = .next t) :
    t.mem = s.mem := by
  rcases exec_next_cases h with ⟨-, _, _, rfl⟩ | ⟨-, _, _, rfl⟩ | ⟨hstore, -⟩ | ⟨-, _, _, -, rfl⟩ |
    ⟨-, _, _, _, _, -, rfl⟩
  case inr.inr.inl => exact absurd hstore hi
  all_goals simp

end

end Sys2Proof.Machine

namespace Sys2Proof.Laws

/-- An SLLI word must have funct7 0 (R161). -/
theorem decode_slli_eq_malformed {w : Word} (h : w &&& 0x0000707F#32 = 0x00001013#32) (h7 : funct7Of w ≠ 0#7) :
    decode w = .error .malformed := by
  have hop : opcodeOf w = 0b0010011#7 := opcodeOf_of_match h (by decide)
  have h3 : funct3Of w = 0b001#3 := funct3Of_of_match h (by decide)
  have hshift : decode w = decodeShiftLeftImm w := by simp [decode_eq_opImm hop, decodeOpImm, h3]
  rw [hshift, decodeShiftLeftImm]
  split
  · exact absurd ‹funct7Of w = _› h7
  · rfl

end Sys2Proof.Laws

namespace Sys2Proof.Claims

open Sys2Proof.Machine

/-- An instruction that ends in writeResult on every state computes what it writes. -/
theorem computes_of_writeResult {i : Instr} {rd : RegIdx} {v : State → Word}
    (h : ∀ s, exec i s = s.writeResult rd (v s)) : Computes i rd v :=
  fun s => yields_of_writeResult (h s)

end Sys2Proof.Claims

namespace Sys2Proof.Proofs

open Sys2Proof.Machine Sys2Proof.Claims Sys2Proof.Laws

/-- Settles O27: a shift by an amount is a multiplication or a division by that power of two, and the amount is x[rs2]
modulo 32. -/
theorem shiftResults : Obligations.ShiftResults := by
  refine ⟨encodes_sll, encodes_srl, encodes_sra, fun rd rs1 rs2 => ⟨?_, ?_, ?_⟩⟩
  · refine computes_of_writeResult fun s => congrArg (s.writeResult rd) ?_
    rw [shiftLeft_eq_ofNat, shiftAmount_toNat]
  · refine computes_of_writeResult fun s => congrArg (s.writeResult rd) ?_
    rw [shiftRightLogical_eq_ofNat, shiftAmount_toNat]
  · refine computes_of_writeResult fun s => congrArg (s.writeResult rd) ?_
    rw [shiftRightArith_eq_ofInt, shiftAmount_toNat]

/-- Settles O31: as the register shifts, with the amount in the word; an SLLI word is checked for its funct7. -/
theorem shiftImmediateResults : Obligations.ShiftImmediateResults := by
  refine ⟨encodes_slli, encodes_srli, encodes_srai, fun _ => decode_slli_eq_malformed, fun rd rs1 shamt => ⟨?_, ?_, ?_⟩⟩
  · exact computes_of_writeResult fun s => congrArg (s.writeResult rd) (shiftLeft_eq_ofNat _ shamt)
  · exact computes_of_writeResult fun s => congrArg (s.writeResult rd) (shiftRightLogical_eq_ofNat _ shamt)
  · exact computes_of_writeResult fun s => congrArg (s.writeResult rd) (shiftRightArith_eq_ofInt _ shamt)

/-- Settles O43: no operation but the store writes memory, and none but it and the load reads it. -/
theorem onlyLoadsAndStoresTouchMemory : Obligations.OnlyLoadsAndStoresTouchMemory :=
  ⟨fun _ _ _ h hi => exec_keeps_mem hi h, fun _ s m hi => exec_withMem s m hi⟩

/-- Settles O23: each word is the encoding of its instruction. -/
theorem exampleWordsDecode : Obligations.ExampleWordsDecode := by
  refine ⟨?_, ?_, ?_, ?_, ?_, ?_, ?_, ?_, ?_⟩ <;> exact decode_eq_ok_iff.2 (by decide)

/-- Settles O24: addition and subtraction of words are those of numbers, modulo 2^32. -/
theorem addSubResults : Obligations.AddSubResults := by
  refine ⟨encodes_add, encodes_sub, fun rd rs1 rs2 => ⟨?_, ?_⟩⟩
  · exact computes_of_writeResult fun s => congrArg (s.writeResult rd) (BitVec.add_def _ _)
  · exact computes_of_writeResult fun s => congrArg (s.writeResult rd) (sub_eq_ofInt _ _)

/-- Settles O25: the result written is the comparison of the two registers. -/
theorem setLessThanResults : Obligations.SetLessThanResults :=
  ⟨encodes_slt, encodes_sltu, fun _ _ _ =>
    ⟨computes_of_writeResult fun _ => rfl, computes_of_writeResult fun _ => rfl⟩⟩

/-- Settles O26: the result written is the bitwise operation of the two registers. -/
theorem bitwiseResults : Obligations.BitwiseResults :=
  ⟨encodes_xor, encodes_or, encodes_and, fun _ _ _ =>
    ⟨computes_of_writeResult fun _ => rfl, computes_of_writeResult fun _ => rfl, computes_of_writeResult fun _ => rfl⟩⟩

/-- Settles O28: as ADD, with the immediate for the second operand. -/
theorem addiResult : Obligations.AddiResult :=
  ⟨encodes_addi, fun rd _ imm =>
    computes_of_writeResult fun s => congrArg (s.writeResult rd) (BitVec.add_def _ imm)⟩

/-- Settles O29: the result written is the comparison of the register and the immediate. -/
theorem setLessThanImmediateResults : Obligations.SetLessThanImmediateResults :=
  ⟨encodes_slti, encodes_sltiu, fun _ _ _ =>
    ⟨computes_of_writeResult fun _ => rfl, computes_of_writeResult fun _ => rfl⟩⟩

/-- Settles O30: the result written is the bitwise operation of the register and the immediate. -/
theorem bitwiseImmediateResults : Obligations.BitwiseImmediateResults :=
  ⟨encodes_xori, encodes_ori, encodes_andi, fun _ _ _ =>
    ⟨computes_of_writeResult fun _ => rfl, computes_of_writeResult fun _ => rfl, computes_of_writeResult fun _ => rfl⟩⟩

end Sys2Proof.Proofs

/-! SUPPORT. The family 42_load_store: what a load reads and a store writes, byte by byte, and the errors of an access that is
refused (spec/42_load_store.md R180 to R191). -/

namespace Sys2Proof.Machine

/-! ### The value of a load, by its bytes (R53, R55) -/

section
variable (m : Memory) (a : Nat)

theorem loadValue_byte_unsigned : loadValue m a .byte .unsigned = BitVec.ofNat 32 (m.byte a).toNat :=
  (BitVec.ofNat_toNat 32 (m.byte a)).symm

/-- A half, zero-extended, as a number: the byte at the higher address counts 256 times (R57). -/
theorem loadValue_half_unsigned : loadValue m a .half .unsigned =
    BitVec.ofNat 32 ((m.byte a).toNat + 256 * (m.byte (a + 1)).toNat) := by
  have hnum : (m.byte (a + 1) ++ m.byte a).toNat = (m.byte a).toNat + 256 * (m.byte (a + 1)).toNat := by
    rw [BitVec.toNat_append, ← Nat.shiftLeft_add_eq_or_of_lt (m.byte a).isLt, Nat.shiftLeft_eq]
    omega
  rw [← hnum, BitVec.ofNat_toNat]
  rfl

end

/-! ### The bytes of a store (R54) -/

/-- Byte `k` of what was stored is bits 8k+7:8k of the value. -/
theorem storeValue_byte_inside {m : Memory} {size a k : Nat} {width : Width} (hm : Memory.wf size m)
    (ha : a + bytesOf width ≤ size) (hk : k < bytesOf width) (v : Word) :
    (storeValue m a v width).byte (a + k) = v.extractLsb' (8 * k) 8 := by
  cases width with
  | byte =>
    obtain rfl : k = 0 := Nat.lt_one_iff.1 hk
    exact (Memory.byte_setLow8 hm a a v).trans (if_pos rfl)
  | half =>
    obtain rfl | rfl : k = 0 ∨ k = 1 := by simp only [bytesOf] at hk; omega
    all_goals simp [storeValue, Memory.byte_setLow16 hm ha, byte0, byte1]
  | word =>
    obtain rfl | rfl | rfl | rfl : k = 0 ∨ k = 1 ∨ k = 2 ∨ k = 3 := by simp only [bytesOf] at hk; omega
    all_goals simp [storeValue, Memory.byte_setWord hm ha, byte0, byte1, byte2, byte3]

/-! ### An access that is refused for its alignment (R53, R58) -/

theorem State.accessFault_eq_misaligned {s : State} {word ea : Word} {width : Width}
    (hmode : s.cfg.misalignedData = .fault) (h : ea.toNat % bytesOf width ≠ 0) :
    s.accessFault word ea width = some (.execMisalignedAccess s.pc word ea width) := by
  simp [State.accessFault, misaligned, hmode, h]

end Sys2Proof.Machine

namespace Sys2Proof.Claims

open Sys2Proof.Machine

/-! ### What a load and a store amount to, in the terms of the statements -/

section
variable {i : Instr} {s : State} {ea v : Word} {width : Width}

/-- An instruction that raises what its access raises has the errors of R53, alignment before bounds (R264). -/
theorem accessErrors_of_accessFault (h : ∀ f, s.accessFault (encode i) ea width = some f → exec i s = .fault f) :
    AccessErrors i s ea width (bytesOf width) := by
  refine ⟨fun hmis => ?_, fun halign hout => ?_⟩
  · obtain ⟨hmode, hmod⟩ := Classical.not_imp.1 hmis
    exact h _ (State.accessFault_eq_misaligned hmode hmod)
  · exact h _ (State.accessFault_eq_outOfBounds halign (Nat.lt_of_not_le hout))

/-- An instruction that ends in a load of `width` delivers the value loaded, or raises (R180). -/
theorem loads_of_load {rd : RegIdx} {x : Extension} (h : exec i s = s.load (encode i) rd ea width x)
    (hv : loadValue s.mem ea.toNat width x = v) : Loads i s rd ea width (bytesOf width) v := by
  subst hv
  refine ⟨fun halign hin => ?_, accessErrors_of_accessFault fun f hf => h.trans (State.load_eq_fault hf)⟩
  have hnone : s.accessFault (encode i) ea width = none := State.accessFault_eq_none_iff.2 ⟨halign, hin⟩
  exact yields_of_writeResult (h.trans (State.load_eq_next hnone))

/-- An instruction that ends in a store of `width` writes the low bytes of its value and advances, or raises (R181). -/
theorem stores_of_store (h : exec i s = s.store (encode i) ea v width) : Stores i s ea v width (bytesOf width) := by
  refine ⟨fun halign hin => ?_, accessErrors_of_accessFault fun f hf => h.trans (State.store_eq_fault hf)⟩
  have hnone : s.accessFault (encode i) ea width = none := State.accessFault_eq_none_iff.2 ⟨halign, hin⟩
  refine ⟨_, h.trans (State.store_eq_next hnone), fun _ => rfl, rfl, fun _ => rfl, rfl, fun hm => ⟨?_, ?_⟩⟩
  · exact fun k hk => storeValue_byte_inside hm hin hk v
  · exact fun a ha => storeValue_byte_outside hm hin ha

end

end Sys2Proof.Claims

namespace Sys2Proof.Proofs

open Sys2Proof.Machine Sys2Proof.Claims Sys2Proof.Laws

/-- Settles O34: each is a load of one byte, whose zero-extension is the byte as a number. -/
theorem loadByteRule : Obligations.LoadByteRule :=
  ⟨encodes_lb, encodes_lbu, fun _ _ _ s =>
    ⟨loads_of_load (x := .signed) rfl rfl, loads_of_load (x := .unsigned) rfl (loadValue_byte_unsigned s.mem _)⟩⟩

/-- Settles O35: each is a load of two bytes, of which the zero-extension is taken as a number. -/
theorem loadHalfRule : Obligations.LoadHalfRule :=
  ⟨encodes_lh, encodes_lhu, fun _ _ _ s =>
    ⟨loads_of_load (x := .signed) rfl rfl, loads_of_load (x := .unsigned) rfl (loadValue_half_unsigned s.mem _)⟩⟩

/-- Settles O36: a load of four bytes, to which no extension applies. -/
theorem loadWordRule : Obligations.LoadWordRule :=
  ⟨encodes_lw, fun _ _ _ _ => loads_of_load (x := .signed) rfl rfl⟩

/-- Settles O37: a store of one byte. -/
theorem storeByteRule : Obligations.StoreByteRule :=
  ⟨encodes_sb, fun _ _ _ _ => stores_of_store rfl⟩

/-- Settles O38: a store of two bytes. -/
theorem storeHalfRule : Obligations.StoreHalfRule :=
  ⟨encodes_sh, fun _ _ _ _ => stores_of_store rfl⟩

/-- Settles O39: a store of four bytes. -/
theorem storeWordRule : Obligations.StoreWordRule :=
  ⟨encodes_sw, fun _ _ _ _ => stores_of_store rfl⟩

end Sys2Proof.Proofs

/-! SUPPORT. The family 43_jumps: JALR's target as a number, when a jump raises, and a jump to an address that no fetch can
read (spec/43_jumps.md R200 to R203). -/

namespace Sys2Proof.Machine

open Sys2Proof.Claims

/-! ### The alignment of a target (R202, R203) -/

section
variable (x : Word)

/-- Clearing bit 0 is rounding down to an even number. -/
theorem and_clear_bit0_eq_ofNat : x &&& 0xFFFFFFFE#32 = BitVec.ofNat 32 (x.toNat / 2 * 2) := by
  have hmask : 0xFFFFFFFE#32 = BitVec.allOnes 32 <<< 1 := by decide
  rw [hmask, ← BitVec.shiftLeft_ushiftRight]
  apply BitVec.eq_of_toNat_eq
  rw [BitVec.toNat_shiftLeft, BitVec.toNat_ushiftRight, Nat.shiftRight_one, Nat.shiftLeft_eq, pow_one, BitVec.toNat_ofNat]

theorem getLsbD_one_eq_true_iff : x.getLsbD 1 = true ↔ x.toNat / 2 % 2 = 1 := by
  rw [BitVec.getLsbD, Nat.testBit_eq_decide_div_mod_eq, pow_one, decide_eq_true_iff]

/-- With bit 0 cleared, a word is a multiple of 4 unless its bit 1 is set. -/
theorem and_clear_bit0_aligned_iff : (x &&& 0xFFFFFFFE#32).toNat % 4 = 0 ↔ x.getLsbD 1 = false := by
  have hlt : x.toNat / 2 * 2 < 2 ^ 32 := by omega
  rw [← Bool.not_eq_true, getLsbD_one_eq_true_iff, and_clear_bit0_eq_ofNat, BitVec.toNat_ofNat, Nat.mod_eq_of_lt hlt]
  omega

/-- Modulo 4, a sum with a multiple of 4 is its other term: 4 divides 2^32. -/
theorem toNat_add_mod_four {a : Word} (ha : a.toNat % 4 = 0) : (a + x).toNat % 4 = x.toNat % 4 := by
  rw [BitVec.toNat_add]
  omega

end

/-! ### When a jump raises, and a jump beyond MEM_SIZE (R201) -/

section
variable {s : State} {word target : Word} {rd rs1 : RegIdx} {imm : Word}

/-- The alignment of the target is the one thing a jump checks. -/
theorem State.jump_faults_iff : (∃ f, s.jump word rd target = .fault f) ↔ target.toNat % 4 ≠ 0 := by
  refine ⟨fun ⟨f, hf⟩ h => ?_, fun h => ⟨_, State.jump_eq_fault h⟩⟩
  rw [State.jump_eq_next h] at hf
  cases hf

/-- JALR's target is a multiple of 4 exactly when bit 1 of the sum is clear. -/
theorem State.jalrTarget_aligned_iff : (s.jalrTarget rs1 imm).toNat % 4 = 0 ↔ (s.reg rs1 + imm).getLsbD 1 = false :=
  and_clear_bit0_aligned_iff _

theorem State.jalrTarget_eq_ofNat : s.jalrTarget rs1 imm = BitVec.ofNat 32 ((s.reg rs1 + imm).toNat / 2 * 2) :=
  and_clear_bit0_eq_ofNat _

/-- A jump to a multiple of 4 whose word is not within MEM_SIZE completes, and the next step fails at its fetch. -/
theorem State.jump_beyond_memory (halign : target.toNat % 4 = 0) (hout : ¬ InBounds s target.toNat 4) :
    ∃ t, s.jump word rd target = .next t ∧ t.pc = target ∧ step t = .fault (.fetchOutOfBounds target) := by
  refine ⟨_, State.jump_eq_next halign, rfl, step_eq_fetchFault (State.fetch_eq_none ?_)⟩
  rw [State.setPc_cfg, State.setReg_cfg, State.setPc_pc]
  exact Nat.lt_of_not_le hout

end

end Sys2Proof.Machine

namespace Sys2Proof.Proofs

open Sys2Proof.Machine Sys2Proof.Claims Sys2Proof.Laws

/-- Settles O44: JAL is a jump to pc + imm, which completes or raises by the alignment of its target. -/
theorem jalRule : Obligations.JalRule :=
  ⟨encodes_jal, fun rd _ s => ⟨yields_jal s rd, State.jump_eq_fault⟩⟩

/-- Settles O46: JALR is a jump to the sum with bit 0 cleared, whose alignment is left to bit 1. -/
theorem jalrRule : Obligations.JalrRule := by
  refine ⟨encodes_jalr, fun rd rs1 imm s => ?_⟩
  rw [← State.jalrTarget_eq_ofNat]
  refine ⟨fun hbit => yields_of_jump rfl (State.jalrTarget_aligned_iff.2 hbit), fun hbit => State.jump_eq_fault ?_⟩
  rw [Ne, State.jalrTarget_aligned_iff, hbit]
  exact Bool.noConfusion

/-- Settles O45: from a multiple of 4 the target is aligned as the immediate is, and a well-formed immediate is even. -/
theorem jalRaisesByItsImmediate : Obligations.JalRaisesByItsImmediate := by
  intro rd imm s hpc hwf
  obtain ⟨-, -, heven⟩ : fitsImmJ imm := of_decide_eq_true hwf
  calc (∃ f, exec (.jal rd imm) s = .fault f)
    _ ↔ (s.pc + imm).toNat % 4 ≠ 0 := State.jump_faults_iff
    _ ↔ imm.toNat % 4 ≠ 0 := by rw [toNat_add_mod_four imm hpc]
    _ ↔ imm.toNat % 4 = 2 := by omega

/-- Settles O47: a jump checks the alignment of its target and leaves the bounds to the next fetch. -/
theorem jumpBeyondMemoryFailsAtFetch : Obligations.JumpBeyondMemoryFailsAtFetch :=
  ⟨fun _ _ _ => State.jump_beyond_memory,
    fun _ _ _ _ hbit => State.jump_beyond_memory (State.jalrTarget_aligned_iff.2 hbit)⟩

end Sys2Proof.Proofs

/-! The family 44_upper_immediate: LUI and AUIPC (spec/44_upper_immediate.md R220, R221). -/

namespace Sys2Proof.Proofs

open Sys2Proof.Machine Sys2Proof.Claims Sys2Proof.Laws

/-- Settles O32: LUI writes its immediate, and AUIPC's sum of words, with the pc it starts from, is that of numbers modulo
2^32. -/
theorem upperImmediateResults : Obligations.UpperImmediateResults := by
  refine ⟨encodes_lui, encodes_auipc, fun rd imm => ⟨?_, ?_⟩⟩
  · exact computes_of_writeResult fun _ => rfl
  · exact computes_of_writeResult fun s => congrArg (s.writeResult rd) (BitVec.add_def s.pc imm)

end Sys2Proof.Proofs

/-! SUPPORT. The family 45_csr: what each CSR instruction makes of the old value, and an update that writes the old value back
(spec/45_csr.md R230 to R239). -/

namespace Sys2Proof.Machine

/-! ### An update that writes back what the CSR holds (R233) -/

section
variable {s : State} {word old : Word} {rd : RegIdx} {csr : CsrAddr} {new : Word → Word}

/-- In a canonical bank, writing back what a CSR holds leaves the state as it is. -/
theorem State.csrWrite_same (hb : CsrBank.wf s.cfg s.csrs) (hold : s.csrRead csr = some old) : s.csrWrite csr old = s := by
  unfold State.csrRead at hold
  split at hold
  · obtain rfl := Option.some.inj hold
    rw [State.csrWrite, Sparse.put_get hb.1]
  · cases hold

theorem State.csrUpdate_eq_next_of_same (hb : CsrBank.wf s.cfg s.csrs) (hold : s.csrRead csr = some old)
    (hnew : new old = old) : s.csrUpdate word rd csr new = .next (s.setReg rd old).advance := by
  rw [State.csrUpdate_eq_next hold, hnew, State.csrWrite_same hb hold]

end

end Sys2Proof.Machine

namespace Sys2Proof.Proofs

open Sys2Proof.Machine Sys2Proof.Claims Sys2Proof.Laws

/-- Settles O49: each is a CSR update whose new value does not depend on the old one. -/
theorem csrWriteRule : Obligations.CsrWriteRule :=
  ⟨encodes_csrrw, encodes_csrrwi, fun _ _ _ =>
    ⟨fun _ => updates_of_csrUpdate rfl, fun zimm => zext_zimm zimm ▸ updates_of_csrUpdate rfl⟩⟩

/-- Settles O50: each is a CSR update that sets the bits of the mask. -/
theorem csrSetRule : Obligations.CsrSetRule :=
  ⟨encodes_csrrs, encodes_csrrsi, fun _ _ _ =>
    ⟨fun _ => updates_of_csrUpdate rfl, fun zimm => zext_zimm zimm ▸ updates_of_csrUpdate rfl⟩⟩

/-- Settles O51: each is a CSR update that clears the bits of the mask, an immediate being extended before the complement. -/
theorem csrClearRule : Obligations.CsrClearRule :=
  ⟨encodes_csrrc, encodes_csrrci, fun _ _ _ =>
    ⟨fun _ => updates_of_csrUpdate rfl, fun zimm => zext_zimm zimm ▸ updates_of_csrUpdate rfl⟩⟩

/-- Settles O52: setting or clearing no bit gives the old value again, and writing that back leaves the bank as it is. -/
theorem zeroMaskLeavesCsrBank : Obligations.ZeroMaskLeavesCsrBank := by
  intro s rd rs1 csr old hs hold
  have hsame {word : Word} {new : Word → Word} (hnew : new old = old) :
      s.csrUpdate word rd csr new = .next (s.setReg rd old).advance := State.csrUpdate_eq_next_of_same hs.csrs hold hnew
  have hset {mask : Word} (hmask : mask = 0#32) : old ||| mask = old := by rw [hmask, BitVec.or_zero]
  have hclear {mask : Word} (hmask : mask = 0#32) : old &&& ~~~ mask = old := by
    rw [hmask, BitVec.not_zero, BitVec.and_allOnes]
  have hzimm : zext 0#5 = 0#32 := by decide
  exact ⟨fun hreg => ⟨hsame (hset hreg), hsame (hclear hreg)⟩, hsame (hset hzimm), hsame (hclear hzimm)⟩

end Sys2Proof.Proofs

/-! SUPPORT. The family 60_exceptions: what a fault reports, and that the instructions outside the error table's groups complete
(spec/60_exceptions.md R260 to R263). -/

namespace Sys2Proof.Machine

section
variable {i : Instr} {s : State} {f : Fault}

/-! ### What a fault reports (R261, R262) -/

/-- Only the fetch error has no instruction word to report. -/
theorem faultCode_eq_one_iff : faultCode f = 1 ↔ faultWord f = none := by
  cases f <;> simp [faultCode, faultWord]

theorem decodeFault_reports (pc word : Word) (e : DecodeError) :
    faultPc (decodeFault pc word e) = pc ∧ faultWord (decodeFault pc word e) = some word := by
  cases e <;> exact ⟨rfl, rfl⟩

theorem exec_fault_reports (h : exec i s = .fault f) : faultPc f = s.pc ∧ faultWord f = some (encode i) := by
  obtain ⟨ea, width, haccess, -⟩ | ⟨csr, rfl, -⟩ | ⟨target, rfl, -⟩ := exec_fault_cases h
  · obtain ⟨rfl, -⟩ | ⟨rfl, -⟩ := State.accessFault_cases haccess <;> exact ⟨rfl, rfl⟩
  · exact ⟨rfl, rfl⟩
  · exact ⟨rfl, rfl⟩

/-- The word reported is the fetched one: an execute error reports the encoding of the decoded instruction, which is the word
it was decoded from. -/
theorem step_fault_reports (h : step s = .fault f) : faultPc f = s.pc ∧ faultWord f = s.fetch := by
  obtain ⟨hfetch, rfl⟩ | ⟨w, e, hfetch, -, rfl⟩ | ⟨w, i, hfetch, hd, hexec⟩ := step_fault h
  · exact ⟨rfl, hfetch.symm⟩
  · rw [hfetch]
    exact decodeFault_reports s.pc w e
  · rw [hfetch, ← (encode_decode hd).1]
    exact exec_fault_reports hexec

/-! ### The instructions that raise no error (R263) -/

/-- The names of R263 are none of those the error table gives to codes 4 to 7. -/
theorem errorFreeNames_disjoint :
    ∀ n ∈ errorFreeNames, n ∉ loadNames ++ storeNames ∧ n ∉ csrNames ∧ n ∉ jumpNames := by decide

theorem exec_completes_of_errorFree (hi : i.mnemonic ∈ errorFreeNames) : ∃ t, exec i s = .next t := by
  obtain ⟨hmem, hcsr, hjump⟩ := errorFreeNames_disjoint _ hi
  cases h : exec i s with
  | next t => exact ⟨t, rfl⟩
  | fault f =>
    obtain ⟨_, _, -, hname, -⟩ | ⟨_, -, hname⟩ | ⟨_, -, hname⟩ := exec_fault_cases h
    · exact absurd hname hmem
    · exact absurd hname hcsr
    · exact absurd hname hjump
  | refused r => exact absurd h (exec_ne_refused i)

end

end Sys2Proof.Machine

namespace Sys2Proof.Proofs

open Sys2Proof.Machine Sys2Proof.Claims

/-- Settles O13: the report is that of the stage the step failed in, and the state a caller finds is the one it had. -/
theorem failingStepReportsPcAndWord : Obligations.FailingStepReportsPcAndWord := by
  intro s f h
  obtain ⟨hpc, hword⟩ := step_fault_reports h
  have hafter : s.after = s := State.after_of_fault h
  exact ⟨hpc, hword, hword ▸ faultCode_eq_one_iff, hafter, hafter.symm ▸ h⟩

/-- Settles O14: a fault is that of an access, of a CSR address or of a target; a misaligned access is wider than a byte. -/
theorem errorsComeFromTheirInstructions : Obligations.ErrorsComeFromTheirInstructions := by
  intro i s f h
  obtain ⟨ea, width, haccess, hname, hwide⟩ | ⟨csr, rfl, hname⟩ | ⟨target, rfl, hname⟩ := exec_fault_cases h
  · obtain ⟨rfl, hmode, hmod⟩ | ⟨rfl, -, -⟩ := State.accessFault_cases haccess
    · have hbyte : width ≠ .byte := by
        rintro rfl
        exact hmod (Nat.mod_one _)
      exact .inr (.inl ⟨rfl, hwide hbyte, hmode⟩)
    · exact .inl ⟨rfl, hname⟩
  · exact .inr (.inr (.inl ⟨rfl, hname⟩))
  · exact .inr (.inr (.inr ⟨rfl, hname⟩))

/-- Settles O33: the 21 are neither loads nor stores nor CSR instructions, so none reads or writes memory or the bank. -/
theorem aluTouchesNoMemoryAndNoCsr : Obligations.AluTouchesNoMemoryAndNoCsr := by
  intro i hi s m b
  obtain ⟨hmem, hcsr, -⟩ := errorFreeNames_disjoint _ hi
  obtain ⟨t, ht⟩ := exec_completes_of_errorFree hi (s := s)
  have hstore : i.mnemonic ∉ storeNames := fun hs => hmem (List.mem_append_right _ hs)
  refine ⟨t, ht, exec_keeps_mem hstore ht, exec_keeps_csrs hcsr ht, ?_⟩
  calc exec i ((s.withMem m).withCsrs b)
    _ = onNext (·.withCsrs b) (onNext (·.withMem m) (exec i s)) := by rw [exec_withCsrs _ b hcsr, exec_withMem s m hmem]
    _ = .next ((t.withMem m).withCsrs b) := by rw [ht]; rfl

end Sys2Proof.Proofs

/-! SUPPORT. The family 70_reset_and_hazards: what each accessor reads in the state the parameters describe, and in the one the
reset parameters describe (spec/70_reset_and_hazards.md R290, R291). -/

namespace Sys2Proof.Machine

/-! ### Reading a stored register (R20, R24) -/

section
variable (s : State)

theorem State.reg_of_ne_zero {r : RegIdx} (h : r ≠ 0#5) : s.reg r = s.regs[r.toNat - 1]'(regSlot_lt h) := dif_neg h

/-- Register `k + 1` is at place `k` of x1 .. x31. -/
theorem State.reg_succ {k : Nat} (hk : k < 31) : s.reg (BitVec.ofNat 5 (k + 1)) = s.regs[k] := by
  have hn : (BitVec.ofNat 5 (k + 1)).toNat = k + 1 := Nat.mod_eq_of_lt (by omega)
  have h : BitVec.ofNat 5 (k + 1) ≠ 0#5 := fun e =>
    Nat.succ_ne_zero k (hn.symm.trans (congrArg BitVec.toNat e))
  simp only [State.reg_of_ne_zero s h, hn, Nat.add_sub_cancel]

end

/-! ### The state the parameters describe (R290, R291) -/

section
variable (p : Params)

@[simp] theorem State.ofParams_pc : (State.ofParams p).pc = p.initPc := rfl
@[simp] theorem State.ofParams_cfg : (State.ofParams p).cfg = p.cfg := rfl
@[simp] theorem State.ofParams_regs : (State.ofParams p).regs = p.initX := rfl

@[simp] theorem State.ofParams_byte (a : Nat) : (State.ofParams p).byte a = Sparse.get 0#8 p.initMem a := rfl

@[simp] theorem State.ofParams_csrRead (c : CsrAddr) :
    (State.ofParams p).csrRead c = if csrRegistered p.cfg c then some (Sparse.get 0#32 p.csrInit c.toNat) else none := rfl

theorem State.ofParams_reg_succ {k : Nat} (hk : k < 31) : (State.ofParams p).reg (BitVec.ofNat 5 (k + 1)) = p.initX[k] := by
  simp only [State.reg_succ _ hk, State.ofParams_regs]

/-- Construction accepts an aligned INIT_PC and good parameters; with `State.construct_next`, it accepts nothing else. -/
theorem State.construct_eq_next {p : Params} (hpc : p.initPc.toNat % 4 = 0) (hp : goodParams p) :
    State.construct p = .next (State.ofParams p) :=
  (if_neg (not_not.2 hpc)).trans (if_neg (not_not.2 hp))

end

/-! ### The reset state (log entries 2 to 7) -/

/-- Its one range of CSR addresses is the whole 12-bit space. -/
@[simp] theorem csrRegistered_resetConfig (c : CsrAddr) : csrRegistered resetConfig c = true := by
  have hlast : c.toNat ≤ 4095 := Nat.le_of_lt_succ c.isLt
  simp [csrRegistered, resetConfig, inCsrRange, hlast]

@[simp] theorem State.reset_reg (r : RegIdx) : State.reset.reg r = 0#32 := by
  by_cases h : r = 0#5
  · rw [h, State.reg_zero]
  · rw [State.reg_of_ne_zero _ h]
    exact Vector.getElem_replicate _

@[simp] theorem State.reset_byte (a : Nat) : State.reset.byte a = 0#8 := rfl

/-- Every address is registered, and CSR_INIT lists none, so each holds 0. -/
@[simp] theorem State.reset_csrRead (c : CsrAddr) : State.reset.csrRead c = some 0#32 :=
  (State.ofParams_csrRead resetParams c).trans (if_pos (csrRegistered_resetConfig c))

end Sys2Proof.Machine

namespace Sys2Proof.Proofs

open Sys2Proof.Machine

/-- Settles O2: the parameters pass the two checks of construction, and every accessor reads its parameter. -/
theorem constructionSetsEveryPiece : Obligations.ConstructionSetsEveryPiece := fun p hpc hp =>
  ⟨State.ofParams p, State.construct_eq_next hpc hp, State.reg_zero _, fun _ hk => State.ofParams_reg_succ p hk,
    State.ofParams_pc p, State.ofParams_byte p, State.ofParams_csrRead p, State.ofParams_cfg p⟩

/-- Settles O4: the reset parameters are accepted; they list no byte and no CSR, and give 0 to each of x1 .. x31. -/
theorem resetStateValues : Obligations.ResetStateValues :=
  ⟨State.construct_eq_next rfl goodParams_resetParams, State.ofParams_pc _, State.reset_reg, State.reset_byte,
    State.reset_csrRead, rfl, rfl⟩

end Sys2Proof.Proofs
